-- ==== Sys2Proof/Word.lean ====
section
/-! DEFINITION. The word types of the machine: bytes, 16-bit words, 4-bit fields, 12-bit immediates, pixels.
Spec: 00_scope.md R6, R9, R11 (every value is unsigned; bit 0 is the least significant bit). -/

namespace Sys2Proof

/-- A memory byte or the content of a general register (R20, R30). -/
abbrev Byte := BitVec 8

/-- An instruction word, the program counter, the address register, a return address (R23, R27, R29, R80). -/
abbrev Word := BitVec 16

/-- A 4-bit field of an instruction word (R81). -/
abbrev Nibble := BitVec 4

/-- A general register's number: always a 4-bit field, so no number is out of range (R20). -/
abbrev Reg := BitVec 4

/-- The 12-bit immediate `NNN` (R81). -/
abbrev Imm12 := BitVec 12

/-- One pixel: 1 is set, 0 is clear (R31). -/
abbrev Pixel := BitVec 1

end Sys2Proof
end

