-- ==== Sys2Proof/Config.lean ====
section
/-! DEFINITION. What an implementation fixes: the parameters of 00_scope.md R6 with the bounds R7 puts on them, their canonical
values (decision D19, DESIGN CHOICE, log 15: this hardware is the instance with the canonical values), and the one open parameter,
the font. -/

namespace Sys2Proof.Config

/-- `CAP`: the memory holds the bytes 0 to `cap - 1` (R6). -/
abbrev cap : Nat := 4096

/-- `W`: columns of the framebuffer (R6). -/
abbrev width : Nat := 64

/-- `H`: rows of the framebuffer (R6). -/
abbrev height : Nat := 32

/-- `LOAD_ADDR`: where the program image is loaded and where `pc` starts (R6). -/
abbrev loadAddr : Nat := 0x200

/-- `FONT_ADDR`: where the font table is loaded (R6). -/
abbrev fontAddr : Nat := 0x050

/-- The font is 16 glyphs of 5 bytes (R6, R8). -/
abbrev fontLen : Nat := 80

/-- `STACK_DEPTH`: the capacity of the call stack (R6, R7). -/
abbrev stackDepth : Nat := 16

/-- `NREGS`: the number of general registers (R6, R7). -/
abbrev numRegs : Nat := 16

/-- `FONT`: the font table the host supplies at reset. The spec gives its length and leaves its bytes open
(R8, decision D18, DESIGN CHOICE, log 1, 91_not_in_source.md N2), so this constant has no body: no proof can learn a byte of it.
Assumption log 1. -/
opaque font : Vector Byte fontLen

/-- The parameters of R6 that may differ from one instance to another, within the bounds of R7 (those of `CAP`, `W` and `H`
are the spec's own: decisions D12, D19, DESIGN CHOICE, log 15). `PROGRAM` and `FONT` are arguments of the reset procedure. The
state, every operation and every meaning are written for an arbitrary instance. -/
structure Params where
  cap        : Nat
  width      : Nat
  height     : Nat
  loadAddr   : Nat
  fontAddr   : Nat
  cap_pos    : 1 ≤ cap := by decide
  cap_le     : cap ≤ 65536 := by decide
  width_pos  : 1 ≤ width := by decide
  height_pos : 1 ≤ height := by decide
  deriving DecidableEq, Repr

/-- This hardware's instance (decision D19, DESIGN CHOICE, log 15). -/
abbrev Params.canonical : Params :=
  { cap := Config.cap, width := Config.width, height := Config.height,
    loadAddr := Config.loadAddr, fontAddr := Config.fontAddr }

end Sys2Proof.Config
end

