-- ==== Sys2Proof/Machine/State.lean ====
section
/-! DEFINITION. The whole state of the machine (10_state.md R20 to R33; R34: "The machine has no other architectural
state"), the fault record, and the state right after reset (R39). The widths that depend on the parameters of R6 do so through
the instance `p`; left out, it is this hardware's, so `State` is the state of this hardware. -/

namespace Sys2Proof.Machine

/-- The four fatal conditions of R230. A fatal condition is no end of the model's run: R235 says what it does to the state
(the record is written and the machine is halted), so the step that raises one answers a NEXT state whose `fault` field
holds the record, and no step of this model answers `Outcome.fault`. Safe: nothing the spec lets go on is stopped here. -/
inductive Fault where
  /-- Code 1. Raised by the fetch, FX33, FX55 and FX65 on an access at or beyond `CAP` (R231). Safe: the spec's own fault. -/
  | outOfBounds
  /-- Code 2. Raised by the step when the fetched word is illegal (R232). Safe: the spec's own fault. -/
  | unimplementedOpcode
  /-- Code 3. Raised by 2NNN when `sp` is 16 (R233, decision D4, DESIGN CHOICE, log 8). Safe: the machine halts where the reference is unguarded. -/
  | stackOverflow
  /-- Code 4. Raised by 00EE when `sp` is 0 (R234, decision D4, DESIGN CHOICE, log 8). Safe: the machine halts where the reference is unguarded. -/
  | stackUnderflow
  deriving DecidableEq, Repr

/-- Why the model gives an instruction no meaning. -/
inductive Refusal where
  /-- Raised by an arm of `exec` whose instruction has no meaning yet; no arm does so. Safe. -/
  | notModelled (mnemonic : String)
  deriving DecidableEq, Repr

/-- `fault.access` (R33): which access failed the bounds check. For a fault that is no `OutOfBounds` the field is 0, which is
`fetch`. -/
inductive Access where
  /-- 0. -/
  | fetch
  /-- 1. -/
  | dataRead
  /-- 2. -/
  | dataWrite
  deriving DecidableEq, Repr

/-- The fault record of R33. `kind` = 0, the empty record, is `none` in `State.fault`. -/
structure FaultRecord where
  kind      : Fault
  instrAddr : Word
  opcode    : Word
  badAddr   : BitVec 17
  access    : Access
  deriving DecidableEq, Repr

/-- `mem` as the bytes that differ from what an unlisted address reads as, by rising address (Machine/Memory.lean). -/
abbrev Memory := List Host.Cell

/-- `fb`: bit `y * W + x` is the pixel at column `x`, row `y` (R31, decision D14, DESIGN CHOICE, log 14). -/
abbrev Frame (p : Config.Params := .canonical) := BitVec (p.width * p.height)

/-- The state of the machine: the record of 10_state.md section 1, and nothing else. -/
structure State (p : Config.Params := .canonical) where
  /-- `V[0..15]`, R20. -/
  v     : Vector Byte Config.numRegs
  /-- `pc`, R23 (16 bits: decision D1, DESIGN CHOICE, log 4). -/
  pc    : Word
  /-- `i`, the address register, R27. -/
  i     : Word
  /-- `sp`, R28: the number of return addresses on the call stack, 0 to 16 (decision D2, DESIGN CHOICE, log 5). -/
  sp    : Fin (Config.stackDepth + 1)
  /-- `stack[0..15]`, R29. -/
  stack : Vector Word Config.stackDepth
  /-- `mem`, R30. -/
  mem   : Memory
  /-- `fb`, R31. -/
  fb    : Frame p
  /-- `dirty`, R32. -/
  dirty : Bool
  /-- `fault`, R33: empty, or the record of the fatal condition that halted the machine. -/
  fault : Option FaultRecord
  deriving DecidableEq, Repr

/-- What `exec` and `step` answer. -/
abbrev Result (p : Config.Params := .canonical) := Host.Outcome (State p) Fault Refusal

/-- What R261 gives every piece of state but memory, which stands as it is given: `pc` and `sp` are the source's, the zeros are
decision D3, DESIGN CHOICE, log 2. `LOAD_ADDR` fits in the 16 bits of `pc` whenever the program load succeeds (R7, R264). -/
def State.cleared (p : Config.Params) (mem : Memory) : State p where
  v     := Vector.replicate Config.numRegs 0
  pc    := BitVec.ofNat 16 p.loadAddr
  i     := 0
  sp    := 0
  stack := Vector.replicate Config.stackDepth 0
  mem   := mem
  fb    := 0
  dirty := false
  fault := none

/-- The state of this hardware right after `Reset` with the empty program and the font `Config.font` (R39, R261, R263). Memory
lists nothing: an unlisted address reads as its reset content. -/
def State.reset : State := State.cleared .canonical []

end Sys2Proof.Machine
end

