-- ==== Sys2Proof/Machine/Framebuffer.lean ====
section
/-! DEFINITION. The storage half of the sub-block `framebuffer_sprite_xor_collision_engine`: the pixel accessors
(20_memory.md R56 to R61). The coordinates are bounded by their types, so the accessors are partial as R61 asks: the caller
wraps. -/

namespace Sys2Proof.Machine

variable {p : Config.Params}

/-- A column of the grid. -/
abbrev Col (p : Config.Params := .canonical) := Fin p.width

/-- A row of the grid. -/
abbrev Row (p : Config.Params := .canonical) := Fin p.height

/-- Row-major: the pixel at column `x`, row `y` is element `y * W + x` (R31, decision D14, DESIGN CHOICE, log 14). -/
def pixelIndex (x : Col p) (y : Row p) : Nat := y.val * p.width + x.val

/-- The element `k` of the grid. -/
def Frame.get (f : Frame p) (k : Nat) : Pixel := BitVec.ofBool (f.getLsbD k)

/-- Set the element `k` of the grid. -/
def Frame.set (f : Frame p) (k : Nat) (b : Pixel) : Frame p :=
  (f &&& ~~~(BitVec.twoPow _ k)) ||| (b.setWidth _ <<< k)

/-- `PixelGet(x, y)`, R57. -/
def State.pixelGet (s : State p) (x : Col p) (y : Row p) : Pixel := s.fb.get (pixelIndex x y)

/-- `PixelSet(x, y, v)`, R58: every call sets `dirty`, also when the pixel keeps its value (decision D9, DESIGN CHOICE, log 10). -/
def State.pixelSet (s : State p) (x : Col p) (y : Row p) (b : Pixel) : State p :=
  { s with fb := s.fb.set (pixelIndex x y) b, dirty := true }

/-- `ClearScreen()`, R59. -/
def State.clearScreen (s : State p) : State p := { s with fb := 0, dirty := true }

/-- `FrameData()`, R60: one byte, 0 or 1, for each pixel, row-major. It changes no state. -/
def State.frameData (s : State p) : Vector Byte (p.width * p.height) :=
  Vector.ofFn fun k => (s.fb.get k.val).setWidth 8

/-- `NeedsRedraw()`, R60. -/
def State.needsRedraw (s : State p) : Bool := s.dirty

end Sys2Proof.Machine
end

