-- ==== Sys2Proof/Syntax.lean ====
section
/-! DEFINITION. The 24 instructions, one constructor for each row of spec/opcode_table.json, in the table's order
(30_encoding.md R86), and the names under which the decoder rejects a word. -/

namespace Sys2Proof

/-- The instructions of R86. A constructor carries every bit of the word that is no dispatch key: the operands, and, where
the row has don't-care bits (R85), those bits as the argument `ignored`. No meaning reads `ignored` to compute an effect; it
is kept because a fault records the whole fetched word (R235: `fault.opcode <- w`). -/
inductive Instr where
  /-- 0-E0 `CLS`, R170. -/
  | cls  (ignored : Nibble)
  /-- 0-EE `RET`, R120. -/
  | ret  (ignored : Nibble)
  /-- 1NNN `JP`, R121. -/
  | jp   (nnn : Imm12)
  /-- 2NNN `CALL`, R122. -/
  | call (nnn : Imm12)
  /-- 3XNN `SE_I`, R123. -/
  | seI  (x : Reg) (nn : Byte)
  /-- 4XNN `SNE_I`, R124. -/
  | sneI (x : Reg) (nn : Byte)
  /-- 5XY- `SE_R`, R125. -/
  | seR  (x y : Reg) (ignored : Nibble)
  /-- 6XNN `LD_I`, R140. -/
  | ldI  (x : Reg) (nn : Byte)
  /-- 7XNN `ADD_I`, R141. -/
  | addI (x : Reg) (nn : Byte)
  /-- 8XY0 `LD_R`, R142. -/
  | ldR  (x y : Reg)
  /-- 8XY1 `OR`, R143. -/
  | orR  (x y : Reg)
  /-- 8XY2 `AND`, R144. -/
  | andR (x y : Reg)
  /-- 8XY3 `XOR`, R145. -/
  | xorR (x y : Reg)
  /-- 8XY4 `ADD_R`, R146. -/
  | addR (x y : Reg)
  /-- 8XY5 `SUB`, R147. -/
  | sub  (x y : Reg)
  /-- 8X-6 `SHR`, R148. -/
  | shr  (x : Reg) (ignored : Nibble)
  /-- 8XY7 `SUBN`, R149. -/
  | subn (x y : Reg)
  /-- 8X-E `SHL`, R150. -/
  | shl  (x : Reg) (ignored : Nibble)
  /-- 9XY- `SNE_R`, R126. -/
  | sneR (x y : Reg) (ignored : Nibble)
  /-- ANNN `LD_A`, R151. -/
  | ldA  (nnn : Imm12)
  /-- DXYN `DRW`, R172. -/
  | drw  (x y : Reg) (n : Nibble)
  /-- FX33 `BCD`, R190. -/
  | bcd  (x : Reg)
  /-- FX55 `ST_M`, R191. -/
  | stM  (x : Reg)
  /-- FX65 `LD_M`, R192. -/
  | ldM  (x : Reg)
  deriving DecidableEq, Repr

/-- Why the decoder gives no instruction. The first four together are the value `ILLEGAL` of R104, split as the table of R88
splits the illegal words; the last is for a byte sequence that holds no whole word (R80). -/
inductive Reject where
  /-- Class 0xB, 0xC or 0xE. -/
  | illegalClass
  /-- Class 0 with `NN` neither 0xE0 nor 0xEE. -/
  | illegalClass0
  /-- Class 8 with `N` in 8, 9, 0xA, 0xB, 0xC, 0xD, 0xF. -/
  | illegalClass8
  /-- Class 0xF with `NN` none of 0x33, 0x55, 0x65. -/
  | illegalClassF
  /-- Fewer than two bytes. -/
  | shortWord
  deriving DecidableEq, Repr

/-- A row of the opcode map: a word `w` is the row's instruction exactly when `w &&& mask = pattern` (R86; `pattern` is the
table's `match`). -/
structure OpcodeRow where
  mask    : Word
  pattern : Word
  deriving DecidableEq, Repr

end Sys2Proof
end

