-- ==== Sys2Proof/WellFormed.lean ====
section
/-! DEFINITION. Which terms of `Instr` are well formed.
Every operand's range is its type (a register number has 4 bits, R20), so the one thing left to check is what 30_encoding.md
R92 asks of an assembled instruction: every don't-care bit is 0. The machine accepts the other words as well (R85), and no
statement about running an instruction assumes well-formedness. -/

namespace Sys2Proof

/-- R92: "Don't-care bits are assembled as 0." -/
def Instr.wellFormed : Instr → Bool
  | .cls g      => g == 0
  | .ret g      => g == 0
  | .jp _       => true
  | .call _     => true
  | .seI _ _    => true
  | .sneI _ _   => true
  | .seR _ _ g  => g == 0
  | .ldI _ _    => true
  | .addI _ _   => true
  | .ldR _ _    => true
  | .orR _ _    => true
  | .andR _ _   => true
  | .xorR _ _   => true
  | .addR _ _   => true
  | .sub _ _    => true
  | .shr _ g    => g == 0
  | .subn _ _   => true
  | .shl _ g    => g == 0
  | .sneR _ _ g => g == 0
  | .ldA _      => true
  | .drw _ _ _  => true
  | .bcd _      => true
  | .stM _      => true
  | .ldM _      => true

end Sys2Proof
end

