-- ==== Sys2Proof/Decode.lean ====
section
/-! DEFINITION. The decoder (30_encoding.md R80 to R89, 40_step_cycle.md R103 to R105) and, after it, the encoder, written
from the same table (R86). -/

namespace Sys2Proof

/-! ### The six fields (R81): computed for every word, from fixed bit positions. -/

def fieldClass (w : Word) : Nibble := w.extractLsb' 12 4
def fieldX (w : Word) : Nibble := w.extractLsb' 8 4
def fieldY (w : Word) : Nibble := w.extractLsb' 4 4
def fieldN (w : Word) : Nibble := w.extractLsb' 0 4
def fieldNN (w : Word) : Byte := w.extractLsb' 0 8
def fieldNNN (w : Word) : Imm12 := w.extractLsb' 0 12

/-! ### The decoder (R104). -/

/-- The second dispatch level of class 0, keyed on `NN`. -/
def decodeClass0 (w : Word) : Except Reject Instr :=
  match (fieldNN w).toNat with
  | 0xE0 => .ok (.cls (fieldX w))
  | 0xEE => .ok (.ret (fieldX w))
  | _    => .error .illegalClass0

/-- The second dispatch level of class 8, keyed on `N`. -/
def decodeClass8 (w : Word) : Except Reject Instr :=
  match (fieldN w).toNat with
  | 0x0 => .ok (.ldR (fieldX w) (fieldY w))
  | 0x1 => .ok (.orR (fieldX w) (fieldY w))
  | 0x2 => .ok (.andR (fieldX w) (fieldY w))
  | 0x3 => .ok (.xorR (fieldX w) (fieldY w))
  | 0x4 => .ok (.addR (fieldX w) (fieldY w))
  | 0x5 => .ok (.sub (fieldX w) (fieldY w))
  | 0x6 => .ok (.shr (fieldX w) (fieldY w))
  | 0x7 => .ok (.subn (fieldX w) (fieldY w))
  | 0xE => .ok (.shl (fieldX w) (fieldY w))
  | _   => .error .illegalClass8

/-- The second dispatch level of class 0xF, keyed on `NN`. -/
def decodeClassF (w : Word) : Except Reject Instr :=
  match (fieldNN w).toNat with
  | 0x33 => .ok (.bcd (fieldX w))
  | 0x55 => .ok (.stM (fieldX w))
  | 0x65 => .ok (.ldM (fieldX w))
  | _    => .error .illegalClassF

/-- `Decode` of R104: total on the 65536 words, no machine state read (R105). The last arm is the classes 0xB, 0xC, 0xE. -/
def decode (w : Word) : Except Reject Instr :=
  match (fieldClass w).toNat with
  | 0x0 => decodeClass0 w
  | 0x1 => .ok (.jp (fieldNNN w))
  | 0x2 => .ok (.call (fieldNNN w))
  | 0x3 => .ok (.seI (fieldX w) (fieldNN w))
  | 0x4 => .ok (.sneI (fieldX w) (fieldNN w))
  | 0x5 => .ok (.seR (fieldX w) (fieldY w) (fieldN w))
  | 0x6 => .ok (.ldI (fieldX w) (fieldNN w))
  | 0x7 => .ok (.addI (fieldX w) (fieldNN w))
  | 0x8 => decodeClass8 w
  | 0x9 => .ok (.sneR (fieldX w) (fieldY w) (fieldN w))
  | 0xA => .ok (.ldA (fieldNNN w))
  | 0xD => .ok (.drw (fieldX w) (fieldY w) (fieldN w))
  | 0xF => decodeClassF w
  | _   => .error .illegalClass

/-- The word of two consecutive bytes, `(high << 8) | low`; the high byte is the one at the lower address (R52, R62, R80). -/
def wordOfBytes (high low : Byte) : Word := BitVec.ofNat 16 (high.toNat * 256 + low.toNat)

/-- The decoder on any bytes: the first two make the word, and what follows them is not read (R90). -/
def decodeBytes : List Byte → Except Reject Instr
  | high :: low :: _ => decode (wordOfBytes high low)
  | _                => .error .shortWord

/-- The two bytes of a word as memory stores them: high byte at the lower address (R80). -/
def bytesOfWord (w : Word) : List Byte := [w.extractLsb' 8 8, w.extractLsb' 0 8]

/-- The host's view of the decoder: the instruction read from a table word of `nbits` bits (every row of the table has 16;
bits above `nbits` are 0). -/
def decodeTableWord (nbits w : Nat) : Option Instr :=
  match decodeBytes (bytesOfWord (BitVec.ofNat 16 (w % 2 ^ nbits))) with
  | .ok i    => some i
  | .error _ => none

/-! ### The encoder. -/

/-- Format `F_NNN` (R82, R92: `0x1000 + nnn`). -/
def wordNNN (cls : Nibble) (nnn : Imm12) : Word := BitVec.ofNat 16 (cls.toNat * 4096 + nnn.toNat)

/-- Format `F_XNN` (R82, R92: `0x3000 + x*256 + nn`). -/
def wordXNN (cls x : Nibble) (nn : Byte) : Word := BitVec.ofNat 16 (cls.toNat * 4096 + x.toNat * 256 + nn.toNat)

/-- Format `F_XYN` (R82, R92: `0xD000 + x*256 + y*16 + n`). -/
def wordXYN (cls x y n : Nibble) : Word :=
  BitVec.ofNat 16 (cls.toNat * 4096 + x.toNat * 256 + y.toNat * 16 + n.toNat)

/-- The word of an instruction: the patterns of R86. On a well-formed instruction it is the word the assembler emits (R92). -/
def encode : Instr → Word
  | .cls g      => wordXNN 0x0 g 0xE0
  | .ret g      => wordXNN 0x0 g 0xEE
  | .jp nnn     => wordNNN 0x1 nnn
  | .call nnn   => wordNNN 0x2 nnn
  | .seI x nn   => wordXNN 0x3 x nn
  | .sneI x nn  => wordXNN 0x4 x nn
  | .seR x y g  => wordXYN 0x5 x y g
  | .ldI x nn   => wordXNN 0x6 x nn
  | .addI x nn  => wordXNN 0x7 x nn
  | .ldR x y    => wordXYN 0x8 x y 0x0
  | .orR x y    => wordXYN 0x8 x y 0x1
  | .andR x y   => wordXYN 0x8 x y 0x2
  | .xorR x y   => wordXYN 0x8 x y 0x3
  | .addR x y   => wordXYN 0x8 x y 0x4
  | .sub x y    => wordXYN 0x8 x y 0x5
  | .shr x g    => wordXYN 0x8 x g 0x6
  | .subn x y   => wordXYN 0x8 x y 0x7
  | .shl x g    => wordXYN 0x8 x g 0xE
  | .sneR x y g => wordXYN 0x9 x y g
  | .ldA nnn    => wordNNN 0xA nnn
  | .drw x y n  => wordXYN 0xD x y n
  | .bcd x      => wordXNN 0xF x 0x33
  | .stM x      => wordXNN 0xF x 0x55
  | .ldM x      => wordXNN 0xF x 0x65

/-! ### The opcode map of R86. -/

/-- The mask and match columns of the instruction's row. -/
def Instr.row : Instr → OpcodeRow
  | .cls _      => ⟨0xF0FF, 0x00E0⟩
  | .ret _      => ⟨0xF0FF, 0x00EE⟩
  | .jp _       => ⟨0xF000, 0x1000⟩
  | .call _     => ⟨0xF000, 0x2000⟩
  | .seI _ _    => ⟨0xF000, 0x3000⟩
  | .sneI _ _   => ⟨0xF000, 0x4000⟩
  | .seR _ _ _  => ⟨0xF000, 0x5000⟩
  | .ldI _ _    => ⟨0xF000, 0x6000⟩
  | .addI _ _   => ⟨0xF000, 0x7000⟩
  | .ldR _ _    => ⟨0xF00F, 0x8000⟩
  | .orR _ _    => ⟨0xF00F, 0x8001⟩
  | .andR _ _   => ⟨0xF00F, 0x8002⟩
  | .xorR _ _   => ⟨0xF00F, 0x8003⟩
  | .addR _ _   => ⟨0xF00F, 0x8004⟩
  | .sub _ _    => ⟨0xF00F, 0x8005⟩
  | .shr _ _    => ⟨0xF00F, 0x8006⟩
  | .subn _ _   => ⟨0xF00F, 0x8007⟩
  | .shl _ _    => ⟨0xF00F, 0x800E⟩
  | .sneR _ _ _ => ⟨0xF000, 0x9000⟩
  | .ldA _      => ⟨0xF000, 0xA000⟩
  | .drw _ _ _  => ⟨0xF000, 0xD000⟩
  | .bcd _      => ⟨0xF0FF, 0xF033⟩
  | .stM _      => ⟨0xF0FF, 0xF055⟩
  | .ldM _      => ⟨0xF0FF, 0xF065⟩

/-- The whole table, in the source's order. -/
def opcodeTable : List OpcodeRow :=
  [⟨0xF0FF, 0x00E0⟩, ⟨0xF0FF, 0x00EE⟩, ⟨0xF000, 0x1000⟩, ⟨0xF000, 0x2000⟩, ⟨0xF000, 0x3000⟩, ⟨0xF000, 0x4000⟩,
   ⟨0xF000, 0x5000⟩, ⟨0xF000, 0x6000⟩, ⟨0xF000, 0x7000⟩, ⟨0xF00F, 0x8000⟩, ⟨0xF00F, 0x8001⟩, ⟨0xF00F, 0x8002⟩] ++
  [⟨0xF00F, 0x8003⟩, ⟨0xF00F, 0x8004⟩, ⟨0xF00F, 0x8005⟩, ⟨0xF00F, 0x8006⟩, ⟨0xF00F, 0x8007⟩, ⟨0xF00F, 0x800E⟩,
   ⟨0xF000, 0x9000⟩, ⟨0xF000, 0xA000⟩, ⟨0xF000, 0xD000⟩, ⟨0xF0FF, 0xF033⟩, ⟨0xF0FF, 0xF055⟩, ⟨0xF0FF, 0xF065⟩]

/-- The word lies in the row. -/
def OpcodeRow.covers (r : OpcodeRow) (w : Word) : Bool := w &&& r.mask == r.pattern

end Sys2Proof
end

