-- ==== Sys2Proof/Machine/Memory.lean ====
section
/-! DEFINITION. The sub-block `memory_controller_with_bounds_check`: the byte memory and its contract
(20_memory.md R49 to R55, R62 to R67, R73). An operation that fails with `OutOfBounds` answers `none`; a failing operation
has no partial effect (R54). The operations take the instance as an argument (R6), and with it a capacity within the bounds of
R7. The five laws of R55 hold of them: laws 1, 2 and 4 of `Memory.read` and `Memory.write`, law 3 of `Memory.writeBlock`, law 5 of
`Memory.readWord`. -/

namespace Sys2Proof.Machine

open Config (Params)

/-- What an address that memory does not list reads as: its content after this hardware's reset, which is the font in its 80
bytes and 0 elsewhere (R39, R66). DESIGN CHOICE: log 1 for the font, log 2 for the zeros. The reset procedure of another instance
lists what differs from it (`Memory.zeroed`). -/
def Memory.unlisted (a : Nat) : Byte :=
  if h : Config.fontAddr ≤ a ∧ a < Config.fontAddr + Config.fontLen then
    Config.font[a - Config.fontAddr]'(by omega)
  else 0

/-- The byte held at an address, whatever the capacity. -/
def Memory.lookup (m : Memory) (a : Nat) : Byte :=
  match m with
  | []     => Memory.unlisted a
  | c :: m => if c.1 = a then c.2 else Memory.lookup m a

/-- Drop the entry of an address. -/
def Memory.dropCell (m : Memory) (a : Nat) : Memory :=
  match m with
  | []     => []
  | c :: m => if c.1 = a then Memory.dropCell m a else c :: Memory.dropCell m a

/-- Put an entry at its place among the rising addresses. -/
def Memory.addCell (m : Memory) (a : Nat) (v : Byte) : Memory :=
  match m with
  | []     => [(a, v)]
  | c :: m => if a < c.1 then (a, v) :: c :: m else c :: Memory.addCell m a v

/-- Set the byte at an address and keep the canonical form: writing what an unlisted address reads as removes the entry. -/
def Memory.put (m : Memory) (a : Nat) (v : Byte) : Memory :=
  if v = Memory.unlisted a then m.dropCell a else (m.dropCell a).addCell a v

/-- The canonical form (DESIGN CHOICE, log 3), for an instance's memory: addresses strictly rising and below `CAP`, and no entry
equal to what an unlisted address reads as. -/
abbrev Memory.wf (m : Memory) (p : Params := .canonical) : Prop :=
  m.Pairwise (fun c d => c.1 < d.1) ∧ ∀ c ∈ m, c.1 < p.cap ∧ c.2 ≠ Memory.unlisted c.1

/-! ### The contract. -/

/-- `MemRead(addr, 1)`, R51: fails at and beyond the capacity (R55 law 2), otherwise answers the byte last written (R55 law 1). -/
def Memory.read (p : Params) (m : Memory) (addr : Nat) : Option Byte :=
  if p.cap ≤ addr then none else some (m.lookup addr)

/-- `MemWrite(addr, 1, v)`, R50: fails at and beyond the capacity (R55 law 2), otherwise changes that one byte (R55 laws 1
and 4). -/
def Memory.write (p : Params) (m : Memory) (addr : Nat) (v : Byte) : Option Memory :=
  if p.cap ≤ addr then none else some (m.put addr v)

/-- `MemRead(addr, 2)`, R52: big-endian, the two bytes read as R51 reads them (R55 law 5). -/
def Memory.readWord (p : Params) (m : Memory) (addr : Nat) : Option Word :=
  if p.cap ≤ addr + 1 then none else some (wordOfBytes (m.lookup addr) (m.lookup (addr + 1)))

/-- Bytes put one after another from an address up. -/
def Memory.putBytes (m : Memory) (addr : Nat) : List Byte → Memory
  | []      => m
  | b :: bs => Memory.putBytes (m.put addr b) (addr + 1) bs

/-- `WriteBlock(bytes, offset)`, R53: as many leading bytes as fit, and their count; it fails only when the offset itself is
out of bounds, also for no bytes (R55 law 3). -/
def Memory.writeBlock (p : Params) (m : Memory) (bytes : List Byte) (offset : Nat) : Option (Memory × Nat) :=
  if p.cap ≤ offset then none
  else
    let count := min bytes.length (p.cap - offset)
    some (m.putBytes offset (bytes.take count), count)

end Sys2Proof.Machine
end

