-- ==== Sys2Proof/Machine/Ops.lean ====
section
/-! DEFINITION. The operations every instruction is made of: the register file, the program counter, the call stack, the
accesses to the instance's memory, the fetch, and raising a fault (60_exceptions.md R230 to R237). -/

namespace Sys2Proof.Machine

variable {p : Config.Params}

/-! ### The register file (R20, R21). -/

/-- `VF`, the register that doubles as a flag (R21). -/
abbrev vf : Reg := 0xF

/-- Every 4-bit field names a register (R20). -/
theorem reg_lt (k : Reg) : k.toNat < Config.numRegs := k.isLt

/-- `V[k]`. -/
def State.reg (s : State p) (k : Reg) : Byte := s.v[k.toNat]'(reg_lt k)

/-- `V[k] <- b`. No register is hard-wired (R20). -/
def State.setReg (s : State p) (k : Reg) (b : Byte) : State p := { s with v := s.v.set k.toNat b (reg_lt k) }

/-! ### The program counter and the address register (R23 to R27). -/

/-- `pc <- t`. -/
def State.setPc (s : State p) (t : Word) : State p := { s with pc := t }

/-- Phase 2 of a step, and the whole effect of a skip: `pc <- (pc + 2) mod 65536` (R26, R101, R127). -/
def State.advance (s : State p) : State p := s.setPc (s.pc + 2)

/-- `i <- v`. -/
def State.setI (s : State p) (v : Word) : State p := { s with i := v }

/-! ### The call stack (R28, R29). -/

/-- `stack[sp] <- t; sp <- sp + 1`, or nothing when the stack already holds 16 return addresses. -/
def State.push (s : State p) (t : Word) : Option (State p) :=
  if h : s.sp.val < Config.stackDepth then
    some { s with stack := s.stack.set s.sp.val t, sp := ⟨s.sp.val + 1, by omega⟩ }
  else none

/-- `sp <- sp - 1; pc <- stack[sp]`, or nothing when the stack is empty. The popped slot keeps its value (R29). -/
def State.pop (s : State p) : Option (State p) :=
  if h : 0 < s.sp.val then
    some { s with sp := ⟨s.sp.val - 1, by omega⟩, pc := s.stack[s.sp.val - 1]'(by omega) }
  else none

/-! ### Memory (R50 to R52). -/

/-- `MemRead(addr, 1)` on the instance's memory. -/
def State.memRead (s : State p) (addr : Nat) : Option Byte := Memory.read p s.mem addr

/-- `MemWrite(addr, 1, v)` on the instance's memory. -/
def State.memWrite (s : State p) (addr : Nat) (v : Byte) : Option (State p) :=
  (Memory.write p s.mem addr v).map fun m => { s with mem := m }

/-- Phase 1 of a step: `MemRead(pc, 2)`. -/
def State.fetch (s : State p) : Option Word := Memory.readWord p s.mem s.pc.toNat

/-! ### Raising a fault (R235). The record is the only thing `raise` writes; there is no vector and no handler. -/

/-- `raise`: the record is written and the machine is halted from then on (R236). -/
def State.raise (s : State p) (r : FaultRecord) : State p := { s with fault := some r }

/-- The machine is halted (R17). -/
def State.halted (s : State p) : Bool := s.fault.isSome

/-- The instruction address `a` of R101 while an instruction executes, when `pc` holds `(a + 2) mod 65536`
(DEDUCED, log 21). -/
def State.instrAddr (s : State p) : Word := s.pc - 2

/-- `raise OutOfBounds` of a failed fetch (R101 phase 1, R231): `pc` still holds `a`, and no word was read. -/
def State.raiseFetch (s : State p) : State p :=
  s.raise { kind := .outOfBounds, instrAddr := s.pc, opcode := 0, badAddr := s.pc.setWidth 17, access := .fetch }

/-- `raise OutOfBounds` of a data access (R231). -/
def State.raiseData (s : State p) (opcode : Word) (bad : Nat) (access : Access) : State p :=
  s.raise { kind := .outOfBounds, instrAddr := s.instrAddr, opcode := opcode, badAddr := BitVec.ofNat 17 bad, access := access }

/-- `raise` of a condition other than `OutOfBounds`: `bad_addr` and `access` are 0 (R33). -/
def State.raisePlain (s : State p) (kind : Fault) (opcode : Word) : State p :=
  s.raise { kind := kind, instrAddr := s.instrAddr, opcode := opcode, badAddr := 0, access := .fetch }

/-! ### The fault record as the numbers of R33 and R37. -/

/-- The codes of R230. -/
def Fault.code : Fault → BitVec 3
  | .outOfBounds         => 1
  | .unimplementedOpcode => 2
  | .stackOverflow       => 3
  | .stackUnderflow      => 4

/-- The codes of `fault.access`. -/
def Access.code : Access → BitVec 2
  | .fetch     => 0
  | .dataRead  => 1
  | .dataWrite => 2

/-- `fault.kind`: 0 when the record is empty. -/
def State.faultKind (s : State p) : BitVec 3 := s.fault.elim 0 fun r => r.kind.code

/-- `fault.instr_addr`. -/
def State.faultInstrAddr (s : State p) : Word := s.fault.elim 0 fun r => r.instrAddr

/-- `fault.opcode`. -/
def State.faultOpcode (s : State p) : Word := s.fault.elim 0 fun r => r.opcode

/-- `fault.bad_addr`. -/
def State.faultBadAddr (s : State p) : BitVec 17 := s.fault.elim 0 fun r => r.badAddr

/-- `fault.access`. -/
def State.faultAccess (s : State p) : BitVec 2 := s.fault.elim 0 fun r => r.access.code

end Sys2Proof.Machine
end

