-- ==== Sys2Proof/Machine/Operands.lean ====
section
/-! DEFINITION. The operand forms (30_encoding.md R83, 44_memory_transfer.md R193): registers `V[X]` and `V[Y]`
(`State.reg`), immediates zero-extended to their destination, the register range `V[0..X]`, and the one data addressing mode,
`i` plus an offset the instruction makes itself. -/

namespace Sys2Proof.Machine

variable {p : Config.Params}

/-- `NNN` as a 16-bit value, zero-extended (R83). -/
def immNNN (nnn : Imm12) : Word := nnn.setWidth 16

/-- The effective address `i + k`, a natural number that never wraps (R73, R193, decision D12, DESIGN CHOICE, log 15). -/
def State.dataAddr (s : State p) (k : Nat) : Nat := s.i.toNat + k

/-- How many registers the range `V[0] .. V[X]` holds, `X` included (R83). -/
def rangeLen (x : Reg) : Nat := x.toNat + 1

/-- The values of `V[0] .. V[X]`, ascending (R191). -/
def State.regRange (s : State p) (x : Reg) : List Byte :=
  (List.range (rangeLen x)).map fun k => s.reg (BitVec.ofNat 4 k)

/-- The three decimal digits of a byte, hundreds first, each a whole byte (R190). -/
def bcdDigits (b : Byte) : List Byte :=
  [BitVec.ofNat 8 (b.toNat / 100), BitVec.ofNat 8 (b.toNat / 10 % 10), BitVec.ofNat 8 (b.toNat % 10)]

/-- The number of rows `N` of a sprite draw (R83). -/
def rowCount (n : Nibble) : Nat := n.toNat

/-- Column `col` of a sprite row byte, the leftmost pixel in bit 7: `(b >> (7 - col)) & 1` (R171). -/
def spritePixel (b : Byte) (col : Nat) : Pixel := (b >>> (7 - col)).setWidth 1

/-- A coordinate sum reduced modulo the width (R172, decision D13, DESIGN CHOICE, log 15: the sum is a natural number). -/
def wrapCol (n : Nat) : Col p := ⟨n % p.width, Nat.mod_lt _ p.width_pos⟩

/-- A coordinate sum reduced modulo the height. -/
def wrapRow (n : Nat) : Row p := ⟨n % p.height, Nat.mod_lt _ p.height_pos⟩

end Sys2Proof.Machine
end

