-- ==== Sys2Proof/Machine/Cycle.lean ====
section
/-! DEFINITION. The cycle around an instruction, for any instance (40_step_cycle.md R100 to R106): fetch, advance, decode, and
the two faults that come before an instruction executes. -/

namespace Sys2Proof.Machine

variable {p : Config.Params}

/-- The step of R101 with `execute` for its phase 4. A halted machine takes no step and nothing changes (R100, R236; log 12); a
failed fetch is raised before `pc` is advanced (R102), an illegal word after (R106). -/
def State.stepBy (execute : Instr → State p → Result p) (s : State p) : Result p :=
  if s.halted then .next s
  else
    match s.fetch with
    | none   => .next s.raiseFetch
    | some w =>
      match decode w with
      | .error _ => .next (s.advance.raisePlain .unimplementedOpcode w)
      | .ok i    => execute i s.advance

/-- A word's two bytes stored where the next fetch reads them, high byte first (R62), and no fault on record, since a halted
machine does not fetch. -/
def State.placeWord (s : State p) (w : Word) : State p :=
  { s with mem := s.mem.putBytes s.pc.toNat (bytesOfWord w), fault := none }

end Sys2Proof.Machine
end

