-- ==== Sys2Proof/Machine/Flags.lean ====
section
/-! DEFINITION. The value each of the six flag-writing instructions gives `VF` (10_state.md R21, 42_load_and_alu.md R152,
43_display.md R172). -/

namespace Sys2Proof.Machine

/-- A flag is the byte 1 or 0. -/
def flagByte (b : Bool) : Byte := if b then 1 else 0

/-- 8XY4: the carry out of bit 7 (R146). -/
def carryFlag (p q : Byte) : Byte := flagByte (decide (255 < p.toNat + q.toNat))

/-- 8XY5 and 8XY7: minuend strictly greater than subtrahend, so 0 on equal operands (R147, R149, R152 item 3). -/
def greaterFlag (minuend subtrahend : Byte) : Byte := flagByte (decide (subtrahend.toNat < minuend.toNat))

/-- 8XY6: the bit shifted out at the right (R148). -/
def lowBitFlag (b : Byte) : Byte := b &&& 1

/-- 8XYE: the bit shifted out at the left (R150). -/
def highBitFlag (b : Byte) : Byte := (b >>> 7) &&& 1

/-- DXYN: `VF | (color & cur)`, sticky once set (R172). -/
def collisionFlag (old : Byte) (color cur : Pixel) : Byte := old ||| (color &&& cur).setWidth 8

end Sys2Proof.Machine
end

