-- ==== Sys2Proof/Machine/Alu.lean ====
section
/-! DEFINITION. The meanings of the register-load and ALU instructions (42_load_and_alu.md). Statements are performed in the
written order and each reads the state as the one before left it (00_scope.md R13, decision D5, DESIGN CHOICE, log 6), which matters when `X` or `Y`
is 0xF. -/

namespace Sys2Proof.Machine

variable {p : Config.Params}

/-- `LD_I`, R140. -/
def execLdI (x : Reg) (nn : Byte) (s : State p) : Result p := .next (s.setReg x nn)

/-- `ADD_I`, R141: modulo 256, no flag. -/
def execAddI (x : Reg) (nn : Byte) (s : State p) : Result p := .next (s.setReg x (s.reg x + nn))

/-- `LD_R`, R142. -/
def execLdR (x y : Reg) (s : State p) : Result p := .next (s.setReg x (s.reg y))

/-- `OR`, R143. -/
def execOrR (x y : Reg) (s : State p) : Result p := .next (s.setReg x (s.reg x ||| s.reg y))

/-- `AND`, R144. -/
def execAndR (x y : Reg) (s : State p) : Result p := .next (s.setReg x (s.reg x &&& s.reg y))

/-- `XOR`, R145. -/
def execXorR (x y : Reg) (s : State p) : Result p := .next (s.setReg x (s.reg x ^^^ s.reg y))

/-- `ADD_R`, R146: the sum first, then the carry of that one addition. -/
def execAddR (x y : Reg) (s : State p) : Result p :=
  .next ((s.setReg x (s.reg x + s.reg y)).setReg vf (carryFlag (s.reg x) (s.reg y)))

/-- `SUB`, R147: the flag first, then the difference of the registers as the flag write left them. -/
def execSub (x y : Reg) (s : State p) : Result p :=
  let t := s.setReg vf (greaterFlag (s.reg x) (s.reg y))
  .next (t.setReg x (t.reg x - t.reg y))

/-- `SHR`, R148: `V[Y]` is neither read nor written. -/
def execShr (x : Reg) (s : State p) : Result p :=
  let t := s.setReg vf (lowBitFlag (s.reg x))
  .next (t.setReg x (t.reg x >>> 1))

/-- `SUBN`, R149. -/
def execSubn (x y : Reg) (s : State p) : Result p :=
  let t := s.setReg vf (greaterFlag (s.reg y) (s.reg x))
  .next (t.setReg x (t.reg y - t.reg x))

/-- `SHL`, R150: `V[Y]` is neither read nor written. -/
def execShl (x : Reg) (s : State p) : Result p :=
  let t := s.setReg vf (highBitFlag (s.reg x))
  .next (t.setReg x (t.reg x <<< 1))

/-- `LD_A`, R151. -/
def execLdA (nnn : Imm12) (s : State p) : Result p := .next (s.setI (immNNN nnn))

end Sys2Proof.Machine
end

