-- ==== Sys2Proof/Machine/Control.lean ====
section
/-! DEFINITION. The meanings of the control-flow instructions (41_control_flow.md). When a meaning starts, `pc` already
holds `a + 2` (40_step_cycle.md R101). -/

namespace Sys2Proof.Machine

variable {p : Config.Params}

/-- The next instruction is skipped when the condition holds (R127). -/
def State.skipIf (s : State p) (c : Bool) : State p := if c then s.advance else s

/-- `RET`, R120. -/
def execRet (ignored : Nibble) (s : State p) : Result p :=
  match s.pop with
  | some t => .next t
  | none   => .next (s.raisePlain .stackUnderflow (encode (.ret ignored)))

/-- `JP`, R121. -/
def execJp (nnn : Imm12) (s : State p) : Result p := .next (s.setPc (immNNN nnn))

/-- `CALL`, R122: the pushed value is the already advanced `pc`. -/
def execCall (nnn : Imm12) (s : State p) : Result p :=
  match s.push s.pc with
  | some t => .next (t.setPc (immNNN nnn))
  | none   => .next (s.raisePlain .stackOverflow (encode (.call nnn)))

/-- `SE_I`, R123. -/
def execSeI (x : Reg) (nn : Byte) (s : State p) : Result p := .next (s.skipIf (s.reg x == nn))

/-- `SNE_I`, R124. -/
def execSneI (x : Reg) (nn : Byte) (s : State p) : Result p := .next (s.skipIf (s.reg x != nn))

/-- `SE_R`, R125. -/
def execSeR (x y : Reg) (s : State p) : Result p := .next (s.skipIf (s.reg x == s.reg y))

/-- `SNE_R`, R126. -/
def execSneR (x y : Reg) (s : State p) : Result p := .next (s.skipIf (s.reg x != s.reg y))

end Sys2Proof.Machine
end

