-- ==== Sys2Proof/Machine/Display.lean ====
section
/-! DEFINITION. The meanings of the display instructions (43_display.md), the sprite draw as the loops of R172. -/

namespace Sys2Proof.Machine

variable {p : Config.Params}

/-- `CLS`, R170. -/
def execCls (s : State p) : Result p := .next s.clearScreen

/-- The body of the inner loop of R172: one sprite pixel. `V[X]` and `V[Y]` are read here, each time, so a draw whose `X` or
`Y` is 0xF follows the collision flag (corner case 3, decision D5, DESIGN CHOICE, log 6). -/
def drawPixel (x y : Reg) (b : Byte) (row : Nat) (s : State p) (col : Nat) : State p :=
  let color := spritePixel b col
  let px := wrapCol ((s.reg x).toNat + col)
  let py := wrapRow ((s.reg y).toNat + row)
  let cur := s.pixelGet px py
  (s.setReg vf (collisionFlag (s.reg vf) color cur)).pixelSet px py (cur ^^^ color)

/-- One row: the columns 0 to 7 of the row byte, ascending. -/
def drawRow (x y : Reg) (b : Byte) (row : Nat) (s : State p) : State p :=
  (List.range 8).foldl (drawPixel x y b row) s

/-- The outer loop: `count` rows from row `row` on. A row whose byte is out of bounds ends the draw, with no fault and the
rows before it in place (R172, R239). -/
def drawRows (x y : Reg) (count row : Nat) (s : State p) : State p :=
  match count with
  | 0 => s
  | count + 1 =>
    match s.memRead (s.dataAddr row) with
    | none   => s
    | some b => drawRows x y count (row + 1) (drawRow x y b row s)

/-- `DRW`, R172. -/
def execDrw (x y : Reg) (n : Nibble) (s : State p) : Result p :=
  .next (drawRows x y (rowCount n) 0 (s.setReg vf 0))

end Sys2Proof.Machine
end

