-- ==== Sys2Proof/Machine/Transfer.lean ====
section
/-! DEFINITION. The meanings of the memory-transfer instructions (44_memory_transfer.md): one byte at a time, in ascending
address order, the first failing access raising `OutOfBounds` and the effects before it kept (R237, decision D6, DESIGN CHOICE, log 7). -/

namespace Sys2Proof.Machine

variable {p : Config.Params}

/-- `MemWrite(i + k, 1, b)`, `MemWrite(i + k + 1, 1, ...)` and so on, for the bytes of a list. -/
def storeBytes (opcode : Word) (k : Nat) (bytes : List Byte) (s : State p) : State p :=
  match bytes with
  | []      => s
  | b :: bs =>
    match s.memWrite (s.dataAddr k) b with
    | none   => s.raiseData opcode (s.dataAddr k) .dataWrite
    | some t => storeBytes opcode (k + 1) bs t

/-- `V[k] <- MemRead(i + k, 1)`, `V[k + 1] <- ...` and so on, for `count` registers. -/
def loadRegs (opcode : Word) (count k : Nat) (s : State p) : State p :=
  match count with
  | 0 => s
  | count + 1 =>
    match s.memRead (s.dataAddr k) with
    | none   => s.raiseData opcode (s.dataAddr k) .dataRead
    | some b => loadRegs opcode count (k + 1) (s.setReg (BitVec.ofNat 4 k) b)

/-- `BCD`, R190. -/
def execBcd (x : Reg) (s : State p) : Result p := .next (storeBytes (encode (.bcd x)) 0 (bcdDigits (s.reg x)) s)

/-- `ST_M`, R191. No register changes while the bytes are written, so they are the registers at the start. -/
def execStM (x : Reg) (s : State p) : Result p := .next (storeBytes (encode (.stM x)) 0 (s.regRange x) s)

/-- `LD_M`, R192. -/
def execLdM (x : Reg) (s : State p) : Result p := .next (loadRegs (encode (.ldM x)) (rangeLen x) 0 s)

end Sys2Proof.Machine
end

