-- ==== Sys2Proof/Machine/Step.lean ====
section
/-! DEFINITION. One step of this hardware (40_step_cycle.md R100 to R106): the cycle of Machine/Cycle.lean around `exec`. -/

namespace Sys2Proof.Machine

/-- One step opportunity with the host's `run` input true (log 20). -/
def step (s : State) : Host.Outcome State Fault Refusal := s.stepBy exec

/-- The host's way to place an instruction where `step` fetches next. It stands for the load of a program from outside the machine
(R260; DESIGN CHOICE, log 18), and means what it says where a word can be fetched at all, that is for `pc + 1 < CAP` (R102). -/
def State.withFetchWord (s : State) (nbits w : Nat) : State := s.placeWord (BitVec.ofNat 16 (w % 2 ^ nbits))

end Sys2Proof.Machine
end

