-- ==== Sys2Proof/Machine/AnyInstance.lean ====
section
/-! DEFINITION. The machine at any instance of the parameters (00_scope.md R6, R7): the same meanings as `exec` dispatches to and
the same cycle as `step` runs, over the state of an arbitrary instance. This hardware is the canonical instance, where `execAt` is
`exec` and `stepAt` is `step`. -/

namespace Sys2Proof.Machine

variable {p : Config.Params}

/-- `Execute(ins)` of R101 at an instance. -/
def execAt (i : Instr) (s : State p) : Result p :=
  match i with
  | .cls _ => execCls s
  | .ret g => execRet g s
  | .jp nnn => execJp nnn s
  | .call nnn => execCall nnn s
  | .seI x nn => execSeI x nn s
  | .sneI x nn => execSneI x nn s
  | .seR x y _ => execSeR x y s
  | .ldI x nn => execLdI x nn s
  | .addI x nn => execAddI x nn s
  | .ldR x y => execLdR x y s
  | .orR x y => execOrR x y s
  | .andR x y => execAndR x y s
  | .xorR x y => execXorR x y s
  | .addR x y => execAddR x y s
  | .sub x y => execSub x y s
  | .shr x _ => execShr x s
  | .subn x y => execSubn x y s
  | .shl x _ => execShl x s
  | .sneR x y _ => execSneR x y s
  | .ldA nnn => execLdA nnn s
  | .drw x y n => execDrw x y n s
  | .bcd x => execBcd x s
  | .stM x => execStM x s
  | .ldM x => execLdM x s

/-- One step at an instance. -/
def stepAt (s : State p) : Result p := s.stepBy execAt

end Sys2Proof.Machine
end

