-- ==== Sys2Proof/Machine/HostInterface.lean ====
section
/-! DEFINITION. What the host can do to the machine, all between steps (50_interfaces.md R215 to R219), and the reset
procedure (70_reset_and_hazards.md R260 to R265). The observations are `State.frameData`, `State.needsRedraw`, the fault
accessors of Machine/Ops.lean and the fields of `State` themselves (R218). -/

namespace Sys2Proof.Machine

open Config (Params)

variable {p : Params}

/-- `mem[k] <- 0` for every `k` below the capacity (R261): only this hardware's font addresses read as something else when
unlisted. -/
def Memory.zeroed (p : Params) : Memory :=
  Memory.putBytes [] Config.fontAddr (List.replicate (min Config.fontLen (p.cap - Config.fontAddr)) 0)

/-- The load-time fault of R261 and R264. -/
def loadFault (offset : Nat) : FaultRecord :=
  { kind := .outOfBounds, instrAddr := 0, opcode := 0, badAddr := BitVec.ofNat 17 offset, access := .dataWrite }

/-- The state before the two loads of R261. -/
def blankState (p : Params) : State p := State.cleared p (Memory.zeroed p)

/-- What `Reset` leaves, and the two counts it reports to the host when both loads succeed. -/
structure LoadReport (p : Params := .canonical) where
  state  : State p
  counts : Option (Nat × Nat)
  deriving DecidableEq, Repr

/-- `Reset(PROGRAM, FONT)` of R261: font first, then program, each by the lenient `WriteBlock`; a load whose offset is out of
bounds leaves the machine halted (R264, decision D18, DESIGN CHOICE, log 17). The instance, the program and the font are its
arguments, as R6 lists them. -/
def resetWith (p : Params) (program : List Byte) (font : Vector Byte Config.fontLen) : LoadReport p :=
  let s := blankState p
  match Memory.writeBlock p s.mem font.toList p.fontAddr with
  | none => { state := s.raise (loadFault p.fontAddr), counts := none }
  | some (m, fontCount) =>
    match Memory.writeBlock p m program p.loadAddr with
    | none => { state := State.raise { s with mem := m } (loadFault p.loadAddr), counts := none }
    | some (m, programCount) => { state := { s with mem := m }, counts := some (fontCount, programCount) }

/-- `AckFrame()`, R218: the one host write. -/
def State.ackFrame (s : State p) : State p := { s with dirty := false }

/-- The host offers a step with its `run` input at a value; a low `run` withholds the step (R100, R217). -/
def offerStep (run : Bool) (s : State) : Result := if run then step s else .next s

/-- The host's moves (R215, decision D17, DESIGN CHOICE, log 16). -/
inductive HostMove where
  /-- `Reset(PROGRAM, FONT)`, at any time between steps, also on a halted machine (R216, R265). -/
  | reset (program : List Byte) (font : Vector Byte Config.fontLen)
  /-- One step opportunity. -/
  | offer (run : Bool)
  /-- `AckFrame()`. -/
  | ackFrame
  deriving DecidableEq, Repr

/-- What a host move does. -/
def hostMove (h : HostMove) (s : State) : Result :=
  match h with
  | .reset program font => .next (resetWith .canonical program font).state
  | .offer run          => offerStep run s
  | .ackFrame           => .next s.ackFrame

end Sys2Proof.Machine
end

