-- ==== Sys2Proof/Safety.lean ====
section
/-! DEFINITION. What counts as a safe run, the invariant of the machine (10_state.md R26, R37, R38; 60_exceptions.md R230 to
R237), and the sprite of 43_display.md R174 as a set of screen pixels, in the terms the statements use. -/

namespace Sys2Proof.Machine

variable {p : Config.Params}

/-- `k` steps, one after another, the host's `run` input true throughout (R108). -/
def run (k : Nat) (s : State) : Result :=
  match k with
  | 0 => .next s
  | k + 1 =>
    match step s with
    | .next t    => run k t
    | .fault r   => .fault r
    | .refused r => .refused r

/-- A run of `k` steps that ends without a fault on record. -/
def RunsUnfaulted (k : Nat) (s : State) : Prop := ∃ t, run k s = .next t ∧ t.fault = none

/-- What the record of an `OutOfBounds` says beside its kind (R231), in the state `s` that carries it. -/
def OutOfBoundsFits (s : State) (r : FaultRecord) : Prop :=
  match r.access with
  | .fetch     => r.opcode = 0 ∧ r.badAddr = r.instrAddr.setWidth 17 ∧ Config.cap ≤ r.instrAddr.toNat + 1 ∧ s.pc = r.instrAddr
  | .dataRead  => Config.cap ≤ r.badAddr.toNat ∧ s.pc = r.instrAddr + 2 ∧ ∃ x, decode r.opcode = .ok (.ldM x)
  | .dataWrite => Config.cap ≤ r.badAddr.toNat ∧ s.pc = r.instrAddr + 2 ∧
      ∃ x, decode r.opcode = .ok (.bcd x) ∨ decode r.opcode = .ok (.stM x)

/-- The fault record agrees with the state that carries it: each of the four conditions of R230 with what R231 to R234 and R237
say of it. -/
def FaultFits (s : State) (r : FaultRecord) : Prop :=
  match r.kind with
  | .outOfBounds => OutOfBoundsFits s r
  | .unimplementedOpcode =>
      r.badAddr = 0 ∧ r.access = .fetch ∧ s.pc = r.instrAddr + 2 ∧ ∃ e, decode r.opcode = .error e
  | .stackOverflow =>
      r.badAddr = 0 ∧ r.access = .fetch ∧ s.pc = r.instrAddr + 2 ∧ s.sp.val = Config.stackDepth ∧
        ∃ nnn, decode r.opcode = .ok (.call nnn)
  | .stackUnderflow =>
      r.badAddr = 0 ∧ r.access = .fetch ∧ s.pc = r.instrAddr + 2 ∧ s.sp.val = 0 ∧ ∃ g, decode r.opcode = .ok (.ret g)

/-- The invariant of the machine. -/
structure State.Inv (s : State) : Prop where
  /-- Memory is in its canonical form. -/
  mem_wf     : s.mem.wf
  /-- `i <= 0xFFF` (R27, R38 item 2). -/
  i_le       : s.i.toNat ≤ 0xFFF
  /-- `pc <= CAP + 2` (R26). -/
  pc_le      : s.pc.toNat ≤ Config.cap + 2
  /-- Every live slot of the call stack holds the address after a call that was fetched (R38 item 4). -/
  stack_live : ∀ (k : Nat) (h : k < Config.stackDepth), k < s.sp.val →
      2 ≤ s.stack[k].toNat ∧ s.stack[k].toNat ≤ Config.cap
  /-- A fault on record fits the state. -/
  fault_fits : ∀ r, s.fault = some r → FaultFits s r

/-- Every row of an `n`-row sprite is in bounds (R174). -/
def State.RowsInBounds (s : State p) (n : Nibble) : Prop := ∀ r, r < rowCount n → s.dataAddr r < p.cap

/-- The sprite has a pixel of colour 1 in row `r`, column `c` (R171: row `r` is the byte at `i + r`). -/
def State.SpriteBit (s : State p) (n : Nibble) (r c : Nat) : Prop :=
  r < rowCount n ∧ c < 8 ∧ ∃ b, s.memRead (s.dataAddr r) = some b ∧ spritePixel b c = 1

/-- The screen pixel `(px, py)` is one of the set `S` of R174, for the origin `(ox, oy)`: some sprite pixel of colour 1 lands
there. -/
def State.InSpriteAt (s : State p) (ox oy : Nat) (n : Nibble) (px : Col p) (py : Row p) : Prop :=
  ∃ r c, s.SpriteBit n r c ∧ px = wrapCol (ox + c) ∧ py = wrapRow (oy + r)

/-- `exec i s` answers a next state that differs from `s` in the general registers alone, and register `k` then holds
`after k`. -/
def SetsRegs (i : Instr) (s : State) (after : Reg → Byte) : Prop :=
  ∃ t, exec i s = .next t ∧ (∀ k, t.reg k = after k) ∧ t = { s with v := t.v }

end Sys2Proof.Machine

namespace Sys2Proof

/-- The instructions that write `VF` whatever their operands (R21). -/
def Instr.writesFlag : Instr → Bool
  | .addR _ _ | .sub _ _ | .shr _ _ | .subn _ _ | .shl _ _ | .drw _ _ _ => true
  | .cls _ | .ret _ | .jp _ | .call _ | .seI _ _ | .sneI _ _ | .seR _ _ _ | .sneR _ _ _ | .ldI _ _ | .addI _ _
  | .ldR _ _ | .orR _ _ | .andR _ _ | .xorR _ _ | .ldA _ | .bcd _ | .stM _ | .ldM _ => false

/-- The general registers an instruction names as its destination (R22): `V[X]`, or the range `V[0] .. V[X]` of FX65. The flag
an instruction writes beside them is `Instr.writesFlag`. -/
def Instr.destReg (i : Instr) (k : Reg) : Bool :=
  match i with
  | .ldI x _ | .addI x _ | .ldR x _ | .orR x _ | .andR x _ | .xorR x _ | .addR x _ | .sub x _ | .shr x _ | .subn x _
  | .shl x _ => k == x
  | .ldM x => decide (k.toNat ≤ x.toNat)
  | .cls _ | .ret _ | .jp _ | .call _ | .seI _ _ | .sneI _ _ | .seR _ _ _ | .sneR _ _ _ | .ldA _ | .drw _ _ _
  | .bcd _ | .stM _ => false

/-- The instructions that may write the program counter: 00EE, 1NNN, 2NNN and the four skips (R24). -/
def Instr.writesPc : Instr → Bool
  | .ret _ | .jp _ | .call _ | .seI _ _ | .sneI _ _ | .seR _ _ _ | .sneR _ _ _ => true
  | .cls _ | .ldI _ _ | .addI _ _ | .ldR _ _ | .orR _ _ | .andR _ _ | .xorR _ _ | .addR _ _ | .sub _ _ | .shr _ _
  | .subn _ _ | .shl _ _ | .ldA _ | .drw _ _ _ | .bcd _ | .stM _ | .ldM _ => false

/-- How many bytes an instruction stores from `i` up when none of them is out of bounds: three for FX33, `X + 1` for FX55, none
otherwise (R64). -/
def Instr.storeLen : Instr → Nat
  | .bcd _ => 3
  | .stM x => Machine.rangeLen x
  | .cls _ | .ret _ | .jp _ | .call _ | .seI _ _ | .sneI _ _ | .seR _ _ _ | .sneR _ _ _ | .ldI _ _ | .addI _ _
  | .ldR _ _ | .orR _ _ | .andR _ _ | .xorR _ _ | .addR _ _ | .sub _ _ | .shr _ _ | .subn _ _ | .shl _ _ | .ldA _
  | .drw _ _ _ | .ldM _ => 0

/-- The instructions that touch the framebuffer: 00E0 and DXYN (R31, 90_conflicts.md C1). -/
def Instr.touchesFrame : Instr → Bool
  | .cls _ | .drw _ _ _ => true
  | .ret _ | .jp _ | .call _ | .seI _ _ | .sneI _ _ | .seR _ _ _ | .sneR _ _ _ | .ldI _ _ | .addI _ _ | .ldR _ _
  | .orR _ _ | .andR _ _ | .xorR _ _ | .addR _ _ | .sub _ _ | .shr _ _ | .subn _ _ | .shl _ _ | .ldA _ | .bcd _
  | .stM _ | .ldM _ => false

end Sys2Proof
end

