-- ==== Sys2Proof/Certificates/Slice0/Obligations.lean ====
section
/-! DEFINITION. The statements about the machine. A docstring names the rule of the spec a statement formalises; where a
statement rests on a decision of 92_eei_decisions.md (a choice the spec marks as its own) it names the decision and the entry of
the assumption log. -/

open Sys2Proof Sys2Proof.Machine

/-! ### Encoding -/

/-- Every instruction, with every operand and every don't-care bit at every value, is what its word decodes to (R81, R82, R86,
R104). That a word decodes whatever its don't-care bits is decision D8 (log 9); a strict decoder refuses those of this statement
that are not 0. -/
def Obligations.DecodeOfEncodeIsTheInstruction : Prop := ∀ i : Instr, decode (encode i) = .ok i

/-- No bit of a legal word is lost: encoding what it decodes to gives it back (R81, R86). The legal words are those of decision D8
(log 9), the don't-care bits at every value. -/
def Obligations.EncodeOfDecodedIsTheWord : Prop := ∀ (w : Word) (i : Instr), decode w = .ok i → encode i = w

/-- R104: "`Decode(w)` is the row whose `(w & mask) == match`, and `ILLEGAL` when no row matches"; and no word lies in two rows
(R86). The don't-care bits are decision D8 (log 9). -/
def Obligations.DecodeAgreesWithOpcodeTable : Prop :=
  ∀ w : Word,
    (∀ i, decode w = .ok i → i.row ∈ opcodeTable ∧ ∀ r ∈ opcodeTable, r.covers w = true ↔ r = i.row) ∧
    (∀ e, decode w = .error e → ∀ r ∈ opcodeTable, r.covers w = false)

/-- The pseudocode of R104 in arithmetic on the word: the class is `w / 4096`, `NN` is `w mod 256`, `N` is `w mod 16`. The last
four lines are the illegal words of R88, and nothing else is. The don't-care bits are decision D8 (log 9). -/
def Obligations.DecodeIsTheCaseTable : Prop :=
  ∀ w : Word, let c := w.toNat / 4096; let nn := w.toNat % 256; let n := w.toNat % 16
    (c = 0x0 ∧ nn = 0xE0 → decode w = .ok (.cls (fieldX w))) ∧
    (c = 0x0 ∧ nn = 0xEE → decode w = .ok (.ret (fieldX w))) ∧
    (c = 0x1 → decode w = .ok (.jp (fieldNNN w))) ∧
    (c = 0x2 → decode w = .ok (.call (fieldNNN w))) ∧
    (c = 0x3 → decode w = .ok (.seI (fieldX w) (fieldNN w))) ∧
    (c = 0x4 → decode w = .ok (.sneI (fieldX w) (fieldNN w))) ∧
    (c = 0x5 → decode w = .ok (.seR (fieldX w) (fieldY w) (fieldN w))) ∧
    (c = 0x6 → decode w = .ok (.ldI (fieldX w) (fieldNN w))) ∧
    (c = 0x7 → decode w = .ok (.addI (fieldX w) (fieldNN w))) ∧
    (c = 0x8 ∧ n = 0x0 → decode w = .ok (.ldR (fieldX w) (fieldY w))) ∧
    (c = 0x8 ∧ n = 0x1 → decode w = .ok (.orR (fieldX w) (fieldY w))) ∧
    (c = 0x8 ∧ n = 0x2 → decode w = .ok (.andR (fieldX w) (fieldY w))) ∧
    (c = 0x8 ∧ n = 0x3 → decode w = .ok (.xorR (fieldX w) (fieldY w))) ∧
    (c = 0x8 ∧ n = 0x4 → decode w = .ok (.addR (fieldX w) (fieldY w))) ∧
    (c = 0x8 ∧ n = 0x5 → decode w = .ok (.sub (fieldX w) (fieldY w))) ∧
    (c = 0x8 ∧ n = 0x6 → decode w = .ok (.shr (fieldX w) (fieldY w))) ∧
    (c = 0x8 ∧ n = 0x7 → decode w = .ok (.subn (fieldX w) (fieldY w))) ∧
    (c = 0x8 ∧ n = 0xE → decode w = .ok (.shl (fieldX w) (fieldY w))) ∧
    (c = 0x9 → decode w = .ok (.sneR (fieldX w) (fieldY w) (fieldN w))) ∧
    (c = 0xA → decode w = .ok (.ldA (fieldNNN w))) ∧
    (c = 0xD → decode w = .ok (.drw (fieldX w) (fieldY w) (fieldN w))) ∧
    (c = 0xF ∧ nn = 0x33 → decode w = .ok (.bcd (fieldX w))) ∧
    (c = 0xF ∧ nn = 0x55 → decode w = .ok (.stM (fieldX w))) ∧
    (c = 0xF ∧ nn = 0x65 → decode w = .ok (.ldM (fieldX w))) ∧
    ((∃ e, decode w = .error e) ↔
      (c = 0x0 ∧ nn ≠ 0xE0 ∧ nn ≠ 0xEE) ∨
      (c = 0x8 ∧ 8 ≤ n ∧ n ≠ 0xE) ∨
      (c = 0xB ∨ c = 0xC ∨ c = 0xE) ∨
      (c = 0xF ∧ nn ≠ 0x33 ∧ nn ≠ 0x55 ∧ nn ≠ 0x65))

/-- R81: the six fields, as the table computes them from the word and as its last paragraph computes them from the two
bytes. That `N` is the low nibble is the spec's own inference (91_not_in_source.md N13). -/
def Obligations.FieldsArePositionsOfTheWord : Prop :=
  (∀ w : Word,
    (fieldClass w).toNat = w.toNat / 4096 ∧ (fieldX w).toNat = w.toNat / 256 % 16 ∧
    (fieldY w).toNat = w.toNat / 16 % 16 ∧ (fieldN w).toNat = w.toNat % 16 ∧
    (fieldNN w).toNat = w.toNat % 256 ∧ (fieldNNN w).toNat = w.toNat % 4096 ∧
    (fieldNN w).toNat = (fieldY w).toNat * 16 + (fieldN w).toNat ∧
    (fieldNNN w).toNat = (fieldX w).toNat * 256 + (fieldNN w).toNat) ∧
  (∀ b0 b1 : Byte, let w := wordOfBytes b0 b1
    (fieldClass w).toNat = b0.toNat / 16 ∧ (fieldX w).toNat = b0.toNat % 16 ∧
    (fieldY w).toNat = b1.toNat / 16 ∧ (fieldN w).toNat = b1.toNat % 16 ∧
    fieldNN w = b1 ∧ (fieldNNN w).toNat = b0.toNat % 16 * 256 + b1.toNat)

/-- Words of 95_test_vectors.md section 2.2, one or more of each family, and three illegal ones. That 0x0FEE is a return and 0x5AB7
an SE_R is decision D8 (log 9), as that section marks them. -/
def Obligations.SpecWordsDecodeAsTabled : Prop :=
  decode 0x00E0 = .ok (.cls 0) ∧ decode 0x0FEE = .ok (.ret 0xF) ∧ decode 0x1ABC = .ok (.jp 0xABC) ∧
  decode 0x2FFF = .ok (.call 0xFFF) ∧ decode 0x3A12 = .ok (.seI 0xA 0x12) ∧ decode 0x5AB7 = .ok (.seR 0xA 0xB 7) ∧
  decode 0x6C99 = .ok (.ldI 0xC 0x99) ∧ decode 0x8AB5 = .ok (.sub 0xA 0xB) ∧ decode 0x8ABE = .ok (.shl 0xA 0xB) ∧
  decode 0xA123 = .ok (.ldA 0x123) ∧ decode 0xD125 = .ok (.drw 1 2 5) ∧ decode 0xF133 = .ok (.bcd 1) ∧
  decode 0xFF65 = .ok (.ldM 0xF) ∧ decode 0x0000 = .error .illegalClass0 ∧ decode 0x8AB8 = .error .illegalClass8 ∧
  decode 0xB123 = .error .illegalClass

/-! ### The step -/

/-- R101: when the two bytes at `pc`, the first one high, decode to an instruction, the step is that instruction at the state
whose `pc` has been advanced by 2. -/
def Obligations.StepRunsTheDecodedInstruction : Prop :=
  ∀ (s : State) (b0 b1 : Byte) (i : Instr), s.fault = none → s.memRead s.pc.toNat = some b0 →
    s.memRead (s.pc.toNat + 1) = some b1 → decode (wordOfBytes b0 b1) = .ok i → step s = exec i { s with pc := s.pc + 2 }

/-- R102: a fetch at `a` with `a + 1 >= CAP` halts the machine before `pc` is advanced, on this hardware and at every capacity of
R7. The record is decision D10 (log 11). -/
def Obligations.FetchBeyondCapacityHalts : Prop :=
  (∀ s : State, s.fault = none → Config.cap ≤ s.pc.toNat + 1 →
    step s = .next { s with fault := some { kind := .outOfBounds, instrAddr := s.pc, opcode := 0,
                                            badAddr := s.pc.setWidth 17, access := .fetch } }) ∧
  (∀ (p : Config.Params) (s : State p), s.fault = none → p.cap ≤ s.pc.toNat + 1 →
    stepAt s = .next { s with fault := some { kind := .outOfBounds, instrAddr := s.pc, opcode := 0,
                                              badAddr := s.pc.setWidth 17, access := .fetch } })

/-- R106, R232: an illegal word halts the machine, `pc` at `a + 2`, the record naming the address and the word; nothing else
changes. The record is decision D10 (log 11). -/
def Obligations.IllegalWordHalts : Prop :=
  ∀ (s : State) (b0 b1 : Byte) (e : Reject), s.fault = none → s.memRead s.pc.toNat = some b0 →
    s.memRead (s.pc.toNat + 1) = some b1 → decode (wordOfBytes b0 b1) = .error e →
    step s = .next { s with pc := s.pc + 2,
                            fault := some { kind := .unimplementedOpcode, instrAddr := s.pc, opcode := wordOfBytes b0 b1,
                                            badAddr := 0, access := .fetch } }

/-- R236: the halted state is absorbing, however many steps the host offers (decision D11, log 12). -/
def Obligations.HaltedMachineNeverMoves : Prop :=
  ∀ s : State, s.fault ≠ none → ∀ k, run k s = .next s

/-- R15, R107: from every state a step ends in a next state; the spec's fatal conditions are states of the machine (R235), so
no step of the model stops it by a fault or a refusal (decisions D10, D11: log 11, 12, 19). -/
def Obligations.EveryStepAnswersANextState : Prop :=
  (∀ s : State, ∃ t, step s = .next t) ∧ ∀ (i : Instr) (s : State), ∃ t, exec i s = .next t

/-- R38 item 6: if no fault is on record after a run, none was at any earlier point of it. -/
def Obligations.NoFaultNowMeansNoFaultBefore : Prop :=
  ∀ (k : Nat) (s : State), RunsUnfaulted k s → ∀ j, j ≤ k → RunsUnfaulted j s

/-! ### Invariants -/

/-- The invariant of the machine holds after reset. The reset values it speaks of beside `pc` and `sp` are decision D3
(log 2). -/
def Obligations.ResetSatisfiesTheInvariant : Prop := State.reset.Inv

/-- Every step, from every state with the invariant, keeps it: memory canonical, `i <= 0xFFF` (R27), `pc <= CAP + 2` (R26),
every live return address the address after a call that was fetched (R38 item 4), and the fault record true to the state that
carries it (R231 to R234, R237). -/
def Obligations.StepKeepsTheInvariant : Prop := ∀ s t : State, s.Inv → step s = .next t → t.Inv

/-- So does every move of the host: a reset with any program and any font, a step offered or withheld, `AckFrame`
(decision D17, log 16). -/
def Obligations.HostMovesKeepTheInvariant : Prop := ∀ (h : HostMove) (s t : State), s.Inv → hostMove h s = .next t → t.Inv

/-! ### The memory controller, for every capacity of R7 -/

/-- R50, R51, R55 laws 1, 2 and 4: a write fails at and beyond the capacity; otherwise it succeeds, the byte reads back, and no
other byte changes. A read fails under the same condition and otherwise answers a byte. -/
def Obligations.ByteWriteThenRead : Prop :=
  ∀ (p : Config.Params) (m : Memory) (a : Nat) (v : Byte),
    (p.cap ≤ a → Memory.write p m a v = none ∧ Memory.read p m a = none) ∧
    (a < p.cap → (∃ b, Memory.read p m a = some b) ∧
      ∃ m', Memory.write p m a v = some m' ∧
        ∀ b, Memory.read p m' b = if b = a then some v else Memory.read p m b)

/-- R52, R55 law 5: the word read succeeds exactly when `addr + 1` is in bounds, and the byte at the lower address is the high
byte. -/
def Obligations.WordReadIsBigEndian : Prop :=
  ∀ (p : Config.Params) (m : Memory) (a : Nat),
    (p.cap ≤ a + 1 → Memory.readWord p m a = none ∧ Memory.read p m (a + 1) = none) ∧
    (a + 1 < p.cap → ∃ high low w, Memory.read p m a = some high ∧ Memory.read p m (a + 1) = some low ∧
      Memory.readWord p m a = some w ∧ w.toNat = high.toNat * 256 + low.toNat)

/-- R53, R55 law 3: the block write drops what does not fit, reports the count written, and fails only when its offset is out of bounds;
that it serves the reset load alone is decision D6 (log 7). -/
def Obligations.BlockWriteTruncates : Prop :=
  ∀ (p : Config.Params) (m : Memory) (bytes : List Byte) (offset : Nat),
    (p.cap ≤ offset → Memory.writeBlock p m bytes offset = none) ∧
    (offset < p.cap → ∃ m', Memory.writeBlock p m bytes offset = some (m', min bytes.length (p.cap - offset)) ∧
      ∀ a, a < p.cap → Memory.read p m' a =
        if offset ≤ a ∧ a < offset + bytes.length then bytes[a - offset]? else Memory.read p m a)

/-- Equal memories are equal data: two memories in canonical form that read the same below the capacity are the same list. The
canonical form is the model's own (log 3). -/
def Obligations.CanonicalMemoriesWithEqualReadsAreEqual : Prop :=
  ∀ (p : Config.Params) (m m' : Memory), m.wf p → m'.wf p →
    (∀ a, a < p.cap → Memory.read p m a = Memory.read p m' a) → m = m'

/-- R71, R62: bytes stored at `pc` are what the very next fetch reads. -/
def Obligations.StoredBytesAreFetchedNext : Prop :=
  ∀ (p : Config.Params) (s t u : State p) (b0 b1 : Byte), s.memWrite s.pc.toNat b0 = some t → t.memWrite (t.pc.toNat + 1) b1 = some u →
    u.fetch = some (wordOfBytes b0 b1)

/-! ### The framebuffer -/

/-- R60, R58: the frame data are one byte, 0 or 1, for each pixel, pixel `(x, y)` at element `y * W + x` (decision D14, log 14),
and setting one pixel changes that element alone and sets `dirty` (decision D9, log 10); for every width and height of R7. -/
def Obligations.FrameDataIsRowMajor : Prop :=
  ∀ (p : Config.Params) (s : State p) (x : Col p) (y : Row p) (b : Pixel) (k : Nat) (hk : k < p.width * p.height),
    (s.frameData[k] = 0 ∨ s.frameData[k] = 1) ∧
    (k = y.val * p.width + x.val → s.frameData[k].toNat = (s.pixelGet x y).toNat) ∧
    (s.pixelSet x y b).frameData[k] = (if k = y.val * p.width + x.val then b.setWidth 8 else s.frameData[k]) ∧
    (s.pixelSet x y b).dirty = true

/-- R170, R59: `CLS` performs `ClearScreen`: every pixel 0, `dirty` true, and nothing else changes, whatever the don't-care bits.
That they are ignored is decision D8 (log 9). -/
def Obligations.ClearScreenClearsEveryPixel : Prop :=
  ∀ (g : Nibble) (s : State), ∃ t, exec (.cls g) s = .next t ∧ (∀ x y, t.pixelGet x y = 0) ∧ t.dirty = true ∧
    t = { s with fb := t.fb, dirty := t.dirty }

/-! ### Register loads and the ALU -/

/-- R140. -/
def Obligations.LoadImmediateSetsTheRegister : Prop :=
  (∀ w : Word, w &&& 0xF000 = 0x6000 → decode w = .ok (.ldI (w.extractLsb' 8 4) (w.extractLsb' 0 8))) ∧
  ∀ (x : Reg) (nn : Byte) (s : State), SetsRegs (.ldI x nn) s fun k => if k = x then nn else s.reg k

/-- R141: the sum modulo 256, and no flag: `VF` changes only as the destination. -/
def Obligations.AddImmediateWrapsWithoutFlag : Prop :=
  (∀ w : Word, w &&& 0xF000 = 0x7000 → decode w = .ok (.addI (w.extractLsb' 8 4) (w.extractLsb' 0 8))) ∧
  ∀ (x : Reg) (nn : Byte) (s : State), SetsRegs (.addI x nn) s fun k =>
    if k = x then BitVec.ofNat 8 (((s.reg x).toNat + nn.toNat) % 256) else s.reg k

/-- R142. -/
def Obligations.CopyRegisterCopies : Prop :=
  (∀ w : Word, w &&& 0xF00F = 0x8000 → decode w = .ok (.ldR (w.extractLsb' 8 4) (w.extractLsb' 4 4))) ∧
  ∀ (x y : Reg) (s : State), SetsRegs (.ldR x y) s fun k => if k = x then s.reg y else s.reg k

/-- R143, R144, R145: bitwise, and `VF` is not written but as the destination. -/
def Obligations.LogicalOperationsAreBitwise : Prop :=
  (∀ w : Word, w &&& 0xF00F = 0x8001 → decode w = .ok (.orR (w.extractLsb' 8 4) (w.extractLsb' 4 4))) ∧
  (∀ w : Word, w &&& 0xF00F = 0x8002 → decode w = .ok (.andR (w.extractLsb' 8 4) (w.extractLsb' 4 4))) ∧
  (∀ w : Word, w &&& 0xF00F = 0x8003 → decode w = .ok (.xorR (w.extractLsb' 8 4) (w.extractLsb' 4 4))) ∧
  ∀ (x y : Reg) (s : State),
    (SetsRegs (.orR x y) s fun k => if k = x then s.reg x ||| s.reg y else s.reg k) ∧
    (SetsRegs (.andR x y) s fun k => if k = x then s.reg x &&& s.reg y else s.reg k) ∧
    (SetsRegs (.xorR x y) s fun k => if k = x then s.reg x ^^^ s.reg y else s.reg k)

/-- R146: the sum modulo 256 first, then the carry of that addition in `VF`, for every `X` and `Y`; with `X` = 0xF the carry
overwrites the sum. -/
def Obligations.AddRegistersThenCarry : Prop :=
  (∀ w : Word, w &&& 0xF00F = 0x8004 → decode w = .ok (.addR (w.extractLsb' 8 4) (w.extractLsb' 4 4))) ∧
  ∀ (x y : Reg) (s : State), SetsRegs (.addR x y) s fun k =>
    if k = vf then (if 255 < (s.reg x).toNat + (s.reg y).toNat then 1 else 0)
    else if k = x then BitVec.ofNat 8 (((s.reg x).toNat + (s.reg y).toNat) % 256)
    else s.reg k

/-- R147, R149, R152 item 3: the flag, minuend strictly greater than subtrahend, first; then the difference modulo 256 of the
registers as the flag write left them (decision D5, log 6). -/
def Obligations.SubtractFlagThenDifference : Prop :=
  ∀ (x y : Reg) (s : State),
    (SetsRegs (.sub x y) s fun k =>
      let g : Byte := if (s.reg y).toNat < (s.reg x).toNat then 1 else 0
      let mid : Reg → Byte := fun j => if j = vf then g else s.reg j
      if k = x then BitVec.ofNat 8 (((mid x).toNat + 256 - (mid y).toNat) % 256) else mid k) ∧
    (SetsRegs (.subn x y) s fun k =>
      let g : Byte := if (s.reg x).toNat < (s.reg y).toNat then 1 else 0
      let mid : Reg → Byte := fun j => if j = vf then g else s.reg j
      if k = x then BitVec.ofNat 8 (((mid y).toNat + 256 - (mid x).toNat) % 256) else mid k)

/-- R148, R150, R152 item 4: the bit shifted out goes to `VF` first, then `V[X]` as the flag write left it is shifted by one
(decision D5, log 6); the `Y` bits, and the register they name, play no part. -/
def Obligations.ShiftFlagThenShift : Prop :=
  ∀ (x : Reg) (g : Nibble) (s : State),
    (SetsRegs (.shr x g) s fun k =>
      let f : Byte := BitVec.ofNat 8 ((s.reg x).toNat % 2)
      let mid : Reg → Byte := fun j => if j = vf then f else s.reg j
      if k = x then BitVec.ofNat 8 ((mid x).toNat / 2) else mid k) ∧
    (SetsRegs (.shl x g) s fun k =>
      let f : Byte := BitVec.ofNat 8 ((s.reg x).toNat / 128)
      let mid : Reg → Byte := fun j => if j = vf then f else s.reg j
      if k = x then BitVec.ofNat 8 (2 * (mid x).toNat % 256) else mid k)

/-- The rows of the corner-case tables of R147 to R150 in which `VF` is an operand (decision D5, log 6). -/
def Obligations.FlagAsOperandCornerCases : Prop :=
  ∀ (x y : Reg) (g : Nibble) (s : State), x ≠ vf → y ≠ vf →
    (∃ t, exec (.sub x vf) s = .next t ∧
      t.reg vf = (if (s.reg vf).toNat < (s.reg x).toNat then 1 else 0) ∧ t.reg x = s.reg x - t.reg vf) ∧
    (∃ t, exec (.sub vf y) s = .next t ∧
      t.reg vf = (if (s.reg y).toNat < (s.reg vf).toNat then 1 else 0) - s.reg y) ∧
    (∃ t, exec (.sub vf vf) s = .next t ∧ t.reg vf = 0) ∧
    (∃ t, exec (.subn x vf) s = .next t ∧
      t.reg vf = (if (s.reg x).toNat < (s.reg vf).toNat then 1 else 0) ∧ t.reg x = t.reg vf - s.reg x) ∧
    (∃ t, exec (.subn vf y) s = .next t ∧
      t.reg vf = s.reg y - (if (s.reg vf).toNat < (s.reg y).toNat then 1 else 0)) ∧
    (∃ t, exec (.subn vf vf) s = .next t ∧ t.reg vf = 0) ∧
    (∃ t, exec (.shr vf g) s = .next t ∧ t.reg vf = 0) ∧
    (∃ t, exec (.shl vf g) s = .next t ∧ t.reg vf = if 128 ≤ (s.reg vf).toNat then 2 else 0)

/-- R151: `i` receives the immediate, zero-extended, nothing else changes, and no other instruction writes `i`. -/
def Obligations.LoadAddressSetsI : Prop :=
  (∀ w : Word, w &&& 0xF000 = 0xA000 → decode w = .ok (.ldA (w.extractLsb' 0 12))) ∧
  (∀ (nnn : Imm12) (s : State), ∃ t, exec (.ldA nnn) s = .next t ∧ t.i.toNat = nnn.toNat ∧ t = { s with i := t.i }) ∧
  (∀ (i : Instr) (s t : State), exec i s = .next t → (∀ nnn, i ≠ .ldA nnn) → t.i = s.i)

/-! ### Rules about the whole machine (the frames) -/

/-- R21, R22: a general register changes only as a destination, or as the flag of one of the six flag-writing instructions. -/
def Obligations.OnlyDestinationsAndFlagChange : Prop :=
  ∀ (i : Instr) (s t : State), exec i s = .next t →
    ∀ k, i.destReg k = false → (i.writesFlag = true → k ≠ vf) → t.reg k = s.reg k

/-- R30, R64: every byte of memory outside the bytes an instruction stores, `i` and the ones after it, reads as before; an
instruction other than FX33 and FX55 stores none. -/
def Obligations.OnlyStoredBytesChange : Prop :=
  ∀ (i : Instr) (s t : State), exec i s = .next t →
    ∀ a, ¬ (s.dataAddr 0 ≤ a ∧ a < s.dataAddr i.storeLen) → t.memRead a = s.memRead a

/-- R28, R29: only 2NNN and 00EE change the stack pointer, and only 2NNN changes a slot. -/
def Obligations.OnlyCallAndReturnChangeTheStack : Prop :=
  ∀ (i : Instr) (s t : State), exec i s = .next t →
    ((∀ nnn, i ≠ .call nnn) → t.stack = s.stack) ∧
    ((∀ nnn, i ≠ .call nnn) → (∀ g, i ≠ .ret g) → t.sp = s.sp)

/-- R31, R32: only 00E0 and DXYN change a pixel or `dirty`, and no instruction clears `dirty`. -/
def Obligations.OnlyDisplayInstructionsTouchTheFrame : Prop :=
  ∀ (i : Instr) (s t : State), exec i s = .next t →
    (i.touchesFrame = false → (∀ x y, t.pixelGet x y = s.pixelGet x y) ∧ t.dirty = s.dirty) ∧
    (s.dirty = true → t.dirty = true)

/-- R24: every instruction but the jump, the call, the return and the skips leaves the advanced `pc`; a call or return that
faults does too (decision D22, log 13). -/
def Obligations.OnlyControlFlowWritesPc : Prop :=
  ∀ (i : Instr) (s t : State), exec i s = .next t →
    (i.writesPc = false → t.pc = s.pc) ∧ (s.fault = none → t.fault ≠ none → t.pc = s.pc)

/-- R230: the ALU instructions, the skips, `JP`, `LD_A`, `CLS` and `DRW` never fault. -/
def Obligations.OnlyFiveInstructionsRaise : Prop :=
  ∀ (i : Instr) (s t : State), exec i s = .next t → s.fault = none → t.fault ≠ none →
    (∃ g, i = .ret g) ∨ (∃ nnn, i = .call nnn) ∨ (∃ x, i = .bcd x) ∨ (∃ x, i = .stM x) ∨ (∃ x, i = .ldM x)

/-- R32: no instruction reads `dirty`: two machines that differ in it alone differ in it alone after a step. -/
def Obligations.DirtyIsNeverRead : Prop :=
  ∀ (s t : State) (d : Bool), step s = .next t → ∃ d', step { s with dirty := d } = .next { t with dirty := d' }

/-! ### Control flow -/

/-- R121: the target replaces the advanced `pc`, nothing else changes, and a jump to its own address is a step that changes
nothing. -/
def Obligations.JumpReplacesPc : Prop :=
  (∀ w : Word, w &&& 0xF000 = 0x1000 → decode w = .ok (.jp (w.extractLsb' 0 12))) ∧
  (∀ (nnn : Imm12) (s : State), ∃ t, exec (.jp nnn) s = .next t ∧ t.pc.toNat = nnn.toNat ∧ t = { s with pc := t.pc }) ∧
  (∀ (nnn : Imm12) (s : State), s.fault = none → s.pc.toNat = nnn.toNat → s.fetch = some (encode (.jp nnn)) → step s = .next s)

/-- R122: a call below 16 entries pushes the advanced `pc` and jumps; with 16 entries it halts with `StackOverflow`, nothing
else written (decisions D2, D4, D10: log 5, 8, 11). -/
def Obligations.CallPushesTheReturnAddress : Prop :=
  ∀ (nnn : Imm12) (s : State),
    (∀ h : s.sp.val < 16, ∃ t, exec (.call nnn) s = .next t ∧ t.pc.toNat = nnn.toNat ∧ t.sp.val = s.sp.val + 1 ∧
      t.stack[s.sp.val] = s.pc ∧ (∀ (k : Nat) (hk : k < 16), k ≠ s.sp.val → t.stack[k] = s.stack[k]) ∧
      t = { s with pc := t.pc, sp := t.sp, stack := t.stack }) ∧
    (s.sp.val = 16 → exec (.call nnn) s = .next { s with fault := some (
      { kind := .stackOverflow, instrAddr := s.pc - 2, opcode := encode (.call nnn), badAddr := 0, access := .fetch }) })

/-- R120: a return, whatever its don't-care bits (decision D8, log 9), pops the last address into `pc` and leaves the slot as it
was; on an empty stack it halts with `StackUnderflow`, nothing else written (decisions D2, D4, D10: log 5, 8, 11). -/
def Obligations.ReturnPopsTheReturnAddress : Prop :=
  ∀ (g : Nibble) (s : State),
    (∀ h : 0 < s.sp.val, ∃ t, exec (.ret g) s = .next t ∧ t.sp.val + 1 = s.sp.val ∧ t.pc = s.stack[s.sp.val - 1] ∧
      t = { s with pc := t.pc, sp := t.sp }) ∧
    (s.sp.val = 0 → exec (.ret g) s = .next { s with fault := some (
      { kind := .stackUnderflow, instrAddr := s.pc - 2, opcode := encode (.ret g), badAddr := 0, access := .fetch }) })

/-- R129: a return, whatever its don't-care bits (decision D8, log 9), matches the call that wrote its slot: `pc` is again the
address after the call and `sp` what it was. -/
def Obligations.ReturnMatchesCall : Prop :=
  ∀ (nnn : Imm12) (g : Nibble) (s t u : State) (h : s.sp.val < 16), exec (.call nnn) s = .next t → u.sp = t.sp →
    u.stack[s.sp.val] = t.stack[s.sp.val] →
    ∃ r, exec (.ret g) u = .next r ∧ r.sp = s.sp ∧ r.pc = s.pc

/-- R123, R124: the immediate skips add 2 to the advanced `pc`, modulo 65536, when the condition holds, and change nothing
else. -/
def Obligations.ImmediateSkips : Prop :=
  (∀ w : Word, w &&& 0xF000 = 0x3000 → decode w = .ok (.seI (w.extractLsb' 8 4) (w.extractLsb' 0 8))) ∧
  (∀ w : Word, w &&& 0xF000 = 0x4000 → decode w = .ok (.sneI (w.extractLsb' 8 4) (w.extractLsb' 0 8))) ∧
  ∀ (x : Reg) (nn : Byte) (s : State),
    (∃ t, exec (.seI x nn) s = .next t ∧ t = { s with pc := t.pc } ∧
      t.pc.toNat = if (s.reg x).toNat = nn.toNat then (s.pc.toNat + 2) % 65536 else s.pc.toNat) ∧
    (∃ t, exec (.sneI x nn) s = .next t ∧ t = { s with pc := t.pc } ∧
      t.pc.toNat = if (s.reg x).toNat = nn.toNat then s.pc.toNat else (s.pc.toNat + 2) % 65536)

/-- R125, R126: the register skips, whatever the don't-care bits (decision D8, log 9); with `X = Y` the one always skips and the
other never. -/
def Obligations.RegisterSkips : Prop :=
  ∀ (x y : Reg) (g : Nibble) (s : State),
    (∃ t, exec (.seR x y g) s = .next t ∧ t = { s with pc := t.pc } ∧
      t.pc.toNat = if (s.reg x).toNat = (s.reg y).toNat then (s.pc.toNat + 2) % 65536 else s.pc.toNat) ∧
    (∃ t, exec (.sneR x y g) s = .next t ∧ t = { s with pc := t.pc } ∧
      t.pc.toNat = if (s.reg x).toNat = (s.reg y).toNat then s.pc.toNat else (s.pc.toNat + 2) % 65536)

/-! ### Memory transfer -/

/-- R190: with three bytes in bounds the decimal digits of `V[X]` are at `i`, `i + 1`, `i + 2`, every other byte reads as before
and nothing else changes (decision D7 for `i`, log 7). -/
def Obligations.BcdStoresTheDigits : Prop :=
  ∀ (x : Reg) (s : State), s.dataAddr 2 < Config.cap → ∃ t h d o, exec (.bcd x) s = .next t ∧
    t.memRead (s.dataAddr 0) = some h ∧ t.memRead (s.dataAddr 1) = some d ∧ t.memRead (s.dataAddr 2) = some o ∧
    100 * h.toNat + 10 * d.toNat + o.toNat = (s.reg x).toNat ∧ d.toNat ≤ 9 ∧ o.toNat ≤ 9 ∧
    (∀ a, ¬ (s.dataAddr 0 ≤ a ∧ a ≤ s.dataAddr 2) → t.memRead a = s.memRead a) ∧ t = { s with mem := t.mem }

/-- R191: with the range in bounds the bytes `V[0] .. V[X]` are at `i .. i + X`, every other byte reads as before and nothing
else changes (decision D7 for `i`, log 7). -/
def Obligations.StoreRegistersStoresTheRange : Prop :=
  ∀ (x : Reg) (s : State), s.dataAddr x.toNat < Config.cap → ∃ t, exec (.stM x) s = .next t ∧
    (∀ k : Reg, k.toNat ≤ x.toNat → t.memRead (s.dataAddr k.toNat) = some (s.reg k)) ∧
    (∀ a, ¬ (s.dataAddr 0 ≤ a ∧ a ≤ s.dataAddr x.toNat) → t.memRead a = s.memRead a) ∧ t = { s with mem := t.mem }

/-- R192: with the range in bounds `V[0] .. V[X]` are the bytes at `i .. i + X`, and nothing else changes (decision D7 for `i`,
log 7). -/
def Obligations.LoadRegistersLoadsTheRange : Prop :=
  ∀ (x : Reg) (s : State), s.dataAddr x.toNat < Config.cap → ∃ t, exec (.ldM x) s = .next t ∧
    (∀ k : Reg, k.toNat ≤ x.toNat → s.memRead (s.dataAddr k.toNat) = some (t.reg k)) ∧
    (∀ k : Reg, x.toNat < k.toNat → t.reg k = s.reg k) ∧ t = { s with v := t.v }

/-- R194: what FX55 stored without a fault, a later FX65 with the same `i` and the same bytes there loads back. -/
def Obligations.StoreThenLoadRestoresRegisters : Prop :=
  ∀ (x : Reg) (s t u : State), exec (.stM x) s = .next t → s.dataAddr x.toNat < Config.cap → u.i = t.i →
    (∀ k, k ≤ x.toNat → u.memRead (s.dataAddr k) = t.memRead (s.dataAddr k)) →
    ∃ r, exec (.ldM x) u = .next r ∧ (∀ k : Reg, k.toNat ≤ x.toNat → r.reg k = s.reg k) ∧
      (∀ k : Reg, x.toNat < k.toNat → r.reg k = u.reg k)

/-- R190, R191, R231, R237: a store that runs past the capacity halts the machine at the first address that does; the bytes
below it have been written, every other byte reads as before, and nothing else changes but the record (decisions D6, D10, D22:
log 7, 11, 13). The first two clauses are this hardware, the last two every capacity of R7. -/
def Obligations.StorePastCapacityKeepsLowerBytes : Prop :=
  (∀ (x : Reg) (s : State),
    (Config.cap ≤ s.dataAddr 2 → ∃ t, exec (.bcd x) s = .next t ∧
      (∀ (k : Nat) (hk : k < 3), s.dataAddr k < Config.cap → t.memRead (s.dataAddr k) = some ((bcdDigits (s.reg x))[k])) ∧
      (∀ a, a < s.dataAddr 0 → t.memRead a = s.memRead a) ∧
      t = { s with mem := t.mem, fault := some (
        { kind := .outOfBounds, instrAddr := s.pc - 2, opcode := encode (.bcd x),
          badAddr := BitVec.ofNat 17 (max Config.cap (s.dataAddr 0)), access := .dataWrite }) }) ∧
    (Config.cap ≤ s.dataAddr x.toNat → ∃ t, exec (.stM x) s = .next t ∧
      (∀ k : Reg, k.toNat ≤ x.toNat → s.dataAddr k.toNat < Config.cap → t.memRead (s.dataAddr k.toNat) = some (s.reg k)) ∧
      (∀ a, a < s.dataAddr 0 → t.memRead a = s.memRead a) ∧
      t = { s with mem := t.mem, fault := some (
        { kind := .outOfBounds, instrAddr := s.pc - 2, opcode := encode (.stM x),
          badAddr := BitVec.ofNat 17 (max Config.cap (s.dataAddr 0)), access := .dataWrite }) })) ∧
  (∀ (p : Config.Params) (x : Reg) (s : State p),
    (p.cap ≤ s.dataAddr 2 → ∃ t, execAt (.bcd x) s = .next t ∧
      (∀ (k : Nat) (hk : k < 3), s.dataAddr k < p.cap → t.memRead (s.dataAddr k) = some ((bcdDigits (s.reg x))[k])) ∧
      (∀ a, a < s.dataAddr 0 → t.memRead a = s.memRead a) ∧
      t = { s with mem := t.mem, fault := some (
        { kind := .outOfBounds, instrAddr := s.pc - 2, opcode := encode (.bcd x),
          badAddr := BitVec.ofNat 17 (max p.cap (s.dataAddr 0)), access := .dataWrite }) }) ∧
    (p.cap ≤ s.dataAddr x.toNat → ∃ t, execAt (.stM x) s = .next t ∧
      (∀ k : Reg, k.toNat ≤ x.toNat → s.dataAddr k.toNat < p.cap → t.memRead (s.dataAddr k.toNat) = some (s.reg k)) ∧
      (∀ a, a < s.dataAddr 0 → t.memRead a = s.memRead a) ∧
      t = { s with mem := t.mem, fault := some (
        { kind := .outOfBounds, instrAddr := s.pc - 2, opcode := encode (.stM x),
          badAddr := BitVec.ofNat 17 (max p.cap (s.dataAddr 0)), access := .dataWrite }) }))

/-- R192, R231, R237: a load that runs past the capacity halts the machine at the first address that does; the registers below
have been loaded, the others keep their values, and nothing else changes but the record (decisions D6, D10, D22: log 7, 11,
13); on this hardware and at every capacity of R7. -/
def Obligations.LoadPastCapacityKeepsLoadedRegisters : Prop :=
  (∀ (x : Reg) (s : State), Config.cap ≤ s.dataAddr x.toNat → ∃ t, exec (.ldM x) s = .next t ∧
    (∀ k : Reg, k.toNat ≤ x.toNat → s.dataAddr k.toNat < Config.cap → s.memRead (s.dataAddr k.toNat) = some (t.reg k)) ∧
    (∀ k : Reg, Config.cap ≤ s.dataAddr k.toNat ∨ x.toNat < k.toNat → t.reg k = s.reg k) ∧
    t = { s with v := t.v, fault := some (
      { kind := .outOfBounds, instrAddr := s.pc - 2, opcode := encode (.ldM x),
        badAddr := BitVec.ofNat 17 (max Config.cap (s.dataAddr 0)), access := .dataRead }) }) ∧
  (∀ (p : Config.Params) (x : Reg) (s : State p), p.cap ≤ s.dataAddr x.toNat → ∃ t, execAt (.ldM x) s = .next t ∧
    (∀ k : Reg, k.toNat ≤ x.toNat → s.dataAddr k.toNat < p.cap → s.memRead (s.dataAddr k.toNat) = some (t.reg k)) ∧
    (∀ k : Reg, p.cap ≤ s.dataAddr k.toNat ∨ x.toNat < k.toNat → t.reg k = s.reg k) ∧
    t = { s with v := t.v, fault := some (
      { kind := .outOfBounds, instrAddr := s.pc - 2, opcode := encode (.ldM x),
        badAddr := BitVec.ofNat 17 (max p.cap (s.dataAddr 0)), access := .dataRead }) })

/-! ### The sprite draw -/

/-- R172: a draw always completes, leaves 0 or 1 in `VF`, and changes nothing but `VF`, pixels and `dirty`. -/
def Obligations.DrawCompletesAndKeepsTheRest : Prop :=
  ∀ (x y : Reg) (n : Nibble) (s : State), ∃ t, exec (.drw x y n) s = .next t ∧ (t.reg vf = 0 ∨ t.reg vf = 1) ∧
    (∀ k, k ≠ vf → t.reg k = s.reg k) ∧ t = { s with v := t.v, fb := t.fb, dirty := t.dirty }

/-- R174, for `X`, `Y` not 0xF and every row in bounds: the pixels of the sprite are inverted, every other pixel is unchanged,
`VF` says whether one of them was set before, and `dirty` becomes true when there is a row (decision D9 for `dirty`, log 10; D14
for the grid, log 14). -/
def Obligations.DrawInvertsTheSprite : Prop :=
  ∀ (x y : Reg) (n : Nibble) (s : State), x ≠ vf → y ≠ vf → s.RowsInBounds n →
    let S := s.InSpriteAt (s.reg x).toNat (s.reg y).toNat n
    ∃ t, exec (.drw x y n) s = .next t ∧
      (∀ px py, S px py → t.pixelGet px py = s.pixelGet px py ^^^ 1) ∧
      (∀ px py, ¬ S px py → t.pixelGet px py = s.pixelGet px py) ∧
      ((∃ px py, S px py ∧ s.pixelGet px py = 1) → t.reg vf = 1) ∧
      ((∀ px py, S px py → s.pixelGet px py = 0) → t.reg vf = 0) ∧
      t.dirty = (s.dirty || decide (0 < n.toNat))

/-- R172 corner case 3: a coordinate register that is 0xF reads the `VF` just reset, so while nothing collides the sprite is
drawn from column 0 or row 0 whatever `VF` held (decision D5, log 6). -/
def Obligations.DrawFromFlagRegisterStartsAtZero : Prop :=
  ∀ (x y : Reg) (n : Nibble) (s : State), s.RowsInBounds n →
    let S := s.InSpriteAt (if x = vf then 0 else (s.reg x).toNat) (if y = vf then 0 else (s.reg y).toNat) n
    (∀ px py, S px py → s.pixelGet px py = 0) →
    ∃ t, exec (.drw x y n) s = .next t ∧ t.reg vf = 0 ∧ (∀ px py, S px py → t.pixelGet px py = 1) ∧
      (∀ px py, ¬ S px py → t.pixelGet px py = s.pixelGet px py)

/-- R172 corner case 2, R239: a sprite that runs past the capacity is drawn as the sprite of the rows that are in bounds, with
no fault; on this hardware and at every capacity of R7. -/
def Obligations.DrawStopsAtTheFirstUnreadableRow : Prop :=
  (∀ (x y : Reg) (n : Nibble) (s : State), Config.cap < s.dataAddr n.toNat →
    exec (.drw x y n) s = exec (.drw x y (BitVec.ofNat 4 (Config.cap - s.dataAddr 0))) s) ∧
  (∀ (p : Config.Params) (x y : Reg) (n : Nibble) (s : State p), p.cap < s.dataAddr n.toNat →
    execAt (.drw x y n) s = execAt (.drw x y (BitVec.ofNat 4 (p.cap - s.dataAddr 0))) s)

/-- R172 corner case 8: drawing the same sprite twice restores every pixel, and the second draw reports a collision when some
pixel of the sprite was clear before the first draw. On a place where every pixel of the sprite was already set the first draw
clears them all, so that the second meets none and reports 0: there the pseudocode of R172 and the law R174 say otherwise than
the words of corner case 8, and the model follows the pseudocode (log 24). -/
def Obligations.DrawTwiceRestoresTheFrame : Prop :=
  ∀ (x y : Reg) (n : Nibble) (s t u : State), x ≠ vf → y ≠ vf → s.RowsInBounds n →
    exec (.drw x y n) s = .next t → exec (.drw x y n) t = .next u →
    let S := s.InSpriteAt (s.reg x).toNat (s.reg y).toNat n
    u.fb = s.fb ∧ ((∃ px py, S px py ∧ s.pixelGet px py = 0) → u.reg vf = 1) ∧
      ((∀ px py, S px py → s.pixelGet px py = 1) → u.reg vf = 0)

/-! ### Reset -/

/-- R39: the state after reset: `pc` = 0x200 and the stack empty, as the source says; the zeros and the empty record are
decisions D3 and D10 (log 2, 11), the font is the open parameter (log 1). -/
def Obligations.ResetStateIsTheTable : Prop :=
  State.reset.pc = 0x200 ∧ State.reset.sp.val = 0 ∧ (∀ k, State.reset.reg k = 0) ∧ State.reset.i = 0 ∧
  (∀ (k : Nat) (h : k < 16), State.reset.stack[k] = 0) ∧ (∀ x y, State.reset.pixelGet x y = 0) ∧
  State.reset.dirty = false ∧ State.reset.fault = none ∧
  (∀ (k : Nat) (h : k < 80), State.reset.memRead (0x50 + k) = some Config.font[k]) ∧
  (∀ a, a < Config.cap → ¬ (0x50 ≤ a ∧ a < 0xA0) → State.reset.memRead a = some 0)

/-- R261, R262, R263: with this hardware's parameters both loads succeed, an over-long program is cut at the capacity, the two
images are in memory, every other byte is 0 (decision D3, log 2), and the rest of the state is the reset state's. At any other
parameters whose load addresses lie below the capacity each image is cut at the capacity, and the program, loaded last, lies over
the font where the two meet (decision D18, log 17). -/
def Obligations.ResetLoadsFontAndProgram : Prop :=
  (∀ (program : List Byte) (font : Vector Byte Config.fontLen),
    let r := resetWith .canonical program font
    r.counts = some (80, min program.length 3584) ∧
    (∀ (k : Nat) (h : k < 80), r.state.memRead (0x50 + k) = some font[k]) ∧
    (∀ (k : Nat) (h : k < program.length), k < 3584 → r.state.memRead (0x200 + k) = some program[k]) ∧
    (∀ a, a < Config.cap → ¬ (0x50 ≤ a ∧ a < 0xA0) → ¬ (0x200 ≤ a ∧ a < 0x200 + program.length) → r.state.memRead a = some 0) ∧
    r.state = { State.reset with mem := r.state.mem }) ∧
  (∀ (p : Config.Params) (program : List Byte) (font : Vector Byte Config.fontLen),
    p.fontAddr < p.cap → p.loadAddr < p.cap →
    let r := resetWith p program font
    r.counts = some (min 80 (p.cap - p.fontAddr), min program.length (p.cap - p.loadAddr)) ∧
    r.state.pc.toNat = p.loadAddr ∧ r.state.fault = none ∧
    ∀ a, a < p.cap → r.state.memRead a =
      if p.loadAddr ≤ a ∧ a < p.loadAddr + program.length then program[a - p.loadAddr]?
      else if p.fontAddr ≤ a ∧ a < p.fontAddr + 80 then font.toList[a - p.fontAddr]?
      else some 0)

/-- The reset state of the model is what the reset procedure of R261 gives for the empty program and the machine's font (Z1;
R263: an empty program is legal). -/
def Obligations.ResetProcedureGivesTheResetState : Prop :=
  resetWith .canonical [] Config.font = { state := State.reset, counts := some (80, 0) }

/-- R264: a capacity at or below a load address is a load-time fault: the machine is halted, the record names the offset, and
in the second case the font has been loaded (decisions D10, D18: log 11, 17). -/
def Obligations.LoadAddressBeyondCapacityHalts : Prop :=
  ∀ (p : Config.Params) (program : List Byte) (font : Vector Byte Config.fontLen),
    let r := resetWith p program font
    (p.cap ≤ p.fontAddr → r.counts = none ∧ r.state.fault = some (loadFault p.fontAddr) ∧
      ∀ a, a < p.cap → r.state.memRead a = some 0) ∧
    (p.fontAddr < p.cap → p.cap ≤ p.loadAddr → r.counts = none ∧ r.state.fault = some (loadFault p.loadAddr) ∧
      ∀ (k : Nat) (h : k < 80), p.fontAddr + k < p.cap → r.state.memRead (p.fontAddr + k) = some font[k])

/-! ### Other instances -/

/-- The machine of an arbitrary instance (R6, R7), taken at this hardware's parameters (decision D19, log 15), is the machine of
`exec` and `step`; and one of its steps at any instance keeps memory in its canonical form below that instance's capacity, so no
byte beyond it ever comes to exist (the canonical form is the model's own, log 3). -/
def Obligations.CanonicalInstanceIsStepAndAnyStepKeepsMemoryCanonical : Prop :=
  (∀ (i : Instr) (s : State), execAt i s = exec i s) ∧ (∀ s : State, stepAt s = step s) ∧
  (∀ (p : Config.Params) (s t : State p), s.mem.wf p → stepAt s = .next t → t.mem.wf p)
end

