-- ==== Sys2Proof/Laws/Frame.lean ====
section
/-! SUPPORT. The framebuffer: a pixel read after a pixel write, and the wrapped coordinates. -/

namespace Sys2Proof.Machine

variable {p : Config.Params}

/-- Two pixels with the same element of the grid are the same pixel (R31). -/
theorem pixelIndex_inj {x x' : Col p} {y y' : Row p} (h : pixelIndex x y = pixelIndex x' y') : x = x' ∧ y = y' := by
  have hw := p.width_pos
  have hx : x.val = x'.val := by
    simpa [pixelIndex, Nat.mod_eq_of_lt x.isLt, Nat.mod_eq_of_lt x'.isLt] using congrArg (· % p.width) h
  have hy : y.val * p.width = y'.val * p.width := by simp only [pixelIndex] at h; omega
  exact ⟨Fin.ext hx, Fin.ext (Nat.eq_of_mul_eq_mul_right hw hy)⟩

theorem pixelIndex_lt (x : Col p) (y : Row p) : pixelIndex x y < p.width * p.height :=
  calc pixelIndex x y < y.val * p.width + p.width := Nat.add_lt_add_left x.isLt _
    _ = (y.val + 1) * p.width := (Nat.succ_mul _ _).symm
    _ ≤ p.height * p.width := Nat.mul_le_mul_right _ y.isLt
    _ = p.width * p.height := Nat.mul_comm _ _

/-- A pixel is set or clear. -/
theorem Pixel.cases (b : Pixel) : b = 0 ∨ b = 1 := by
  revert b; decide

theorem Frame.get_set_same (f : Frame p) {k : Nat} (h : k < p.width * p.height) (b : Pixel) : (f.set k b).get k = b := by
  rcases Pixel.cases b with rfl | rfl <;> simp [Frame.get, Frame.set, h]

theorem Frame.get_set_other (f : Frame p) {j k : Nat} (h : j ≠ k) (b : Pixel) : (f.set k b).get j = f.get j := by
  by_cases hj : j < p.width * p.height
  · have hp : ((b.setWidth (p.width * p.height)) <<< k).getLsbD j = false := by
      rw [BitVec.getLsbD_shiftLeft, BitVec.getLsbD_setWidth]
      by_cases hl : j < k
      · simp [hl]
      · rw [BitVec.getLsbD_of_ge b (j - k) (by omega)]; simp
    have ht : (BitVec.twoPow (p.width * p.height) k).getLsbD j = false := by
      rw [BitVec.getLsbD_twoPow]; simp [Ne.symm h]
    rw [Frame.get, Frame.set, BitVec.getLsbD_or, BitVec.getLsbD_and, BitVec.getLsbD_not, hp, ht]
    simp [Frame.get, hj]
  · rw [Frame.get, Frame.get, BitVec.getLsbD_of_ge (f.set k b) j (by omega), BitVec.getLsbD_of_ge f j (by omega)]

@[simp] theorem State.pixelGet_pixelSet_same (s : State p) (x : Col p) (y : Row p) (b : Pixel) :
    (s.pixelSet x y b).pixelGet x y = b := Frame.get_set_same _ (pixelIndex_lt x y) b

theorem State.pixelGet_pixelSet_other (s : State p) {x x' : Col p} {y y' : Row p} (b : Pixel) (h : ¬ (x' = x ∧ y' = y)) :
    (s.pixelSet x y b).pixelGet x' y' = s.pixelGet x' y' :=
  Frame.get_set_other _ (fun e => h (pixelIndex_inj e)) b

@[simp] theorem State.pixelGet_setReg (s : State p) (k : Reg) (b : Byte) (x : Col p) (y : Row p) :
    (s.setReg k b).pixelGet x y = s.pixelGet x y := rfl

@[simp] theorem State.pixelGet_clearScreen (s : State p) (x : Col p) (y : Row p) : s.clearScreen.pixelGet x y = 0 := by
  simp [State.pixelGet, Frame.get, State.clearScreen]

end Sys2Proof.Machine
end

