-- ==== Sys2Proof/Laws/Memory.lean ====
section
/-! SUPPORT. The byte memory: what one entry's change does to every read, that every operation keeps the canonical form, and
that memories in canonical form are equal when they read the same. -/

namespace Sys2Proof.Machine

namespace Memory

/-! ### Reads after a change of one entry. These hold of every list, canonical or not. -/

@[simp] theorem lookup_nil (a : Nat) : lookup [] a = unlisted a := rfl

theorem lookup_cons (c : Host.Cell) (m : Memory) (a : Nat) :
    lookup (c :: m) a = if c.1 = a then c.2 else lookup m a := rfl

theorem lookup_dropCell (m : Memory) (a b : Nat) :
    lookup (dropCell m a) b = if b = a then unlisted a else lookup m b := by
  induction m with
  | nil => by_cases h : b = a <;> simp [dropCell, h]
  | cons c m ih =>
    by_cases hc : c.1 = a
    · rw [dropCell, if_pos hc, ih]
      by_cases h : b = a
      · simp [h]
      · simp [h, lookup_cons, hc, Ne.symm h]
    · by_cases h : b = a
      · subst h; simp [dropCell, hc, lookup_cons, ih]
      · simp [dropCell, hc, lookup_cons, ih, h]

theorem lookup_addCell_other (m : Memory) {a b : Nat} (v : Byte) (h : b ≠ a) :
    lookup (addCell m a v) b = lookup m b := by
  induction m with
  | nil => simp [addCell, lookup_cons, Ne.symm h]
  | cons c m ih =>
    by_cases hc : a < c.1
    · simp [addCell, hc, lookup_cons, Ne.symm h]
    · simp [addCell, hc, lookup_cons, ih]

theorem lookup_addCell_same (m : Memory) (a : Nat) (v : Byte) (h : ∀ c ∈ m, c.1 ≠ a) :
    lookup (addCell m a v) a = v := by
  induction m with
  | nil => simp [addCell, lookup_cons]
  | cons c m ih =>
    have hc := h c (by simp)
    by_cases hlt : a < c.1
    · simp [addCell, hlt, lookup_cons]
    · simp [addCell, hlt, lookup_cons, hc, ih fun d hd => h d (by simp [hd])]

theorem mem_dropCell {m : Memory} {a : Nat} {c : Host.Cell} : c ∈ dropCell m a ↔ c ∈ m ∧ c.1 ≠ a := by
  induction m with
  | nil => simp [dropCell]
  | cons d m ih =>
    by_cases hd : d.1 = a
    · rw [dropCell, if_pos hd, ih]
      constructor
      · exact fun ⟨h, hn⟩ => ⟨by simp [h], hn⟩
      · rintro ⟨h, hn⟩
        rcases List.mem_cons.mp h with rfl | h
        · exact absurd hd hn
        · exact ⟨h, hn⟩
    · rw [dropCell, if_neg hd, List.mem_cons, ih, List.mem_cons]
      constructor
      · rintro (rfl | ⟨h, hn⟩)
        · exact ⟨.inl rfl, hd⟩
        · exact ⟨.inr h, hn⟩
      · rintro ⟨rfl | h, hn⟩
        · exact .inl rfl
        · exact .inr ⟨h, hn⟩

/-- The whole effect of writing one byte. -/
theorem lookup_put (m : Memory) (a b : Nat) (v : Byte) : lookup (put m a v) b = if b = a then v else lookup m b := by
  unfold put
  by_cases hv : v = unlisted a
  · simp [hv, lookup_dropCell]
  · by_cases h : b = a
    · subst h
      simp [hv, lookup_addCell_same _ _ _ fun c hc => (mem_dropCell.mp hc).2]
    · simp [hv, h, lookup_addCell_other _ _ h, lookup_dropCell]

@[simp] theorem lookup_put_same (m : Memory) (a : Nat) (v : Byte) : lookup (put m a v) a = v := by simp [lookup_put]

@[simp] theorem lookup_put_other (m : Memory) {a b : Nat} (v : Byte) (h : b ≠ a) :
    lookup (put m a v) b = lookup m b := by simp [lookup_put, h]

/-- The whole effect of writing bytes from an address up. -/
theorem lookup_putBytes (bytes : List Byte) : ∀ (m : Memory) (a b : Nat), lookup (putBytes m a bytes) b =
    if h : a ≤ b ∧ b < a + bytes.length then bytes[b - a]'(by omega) else lookup m b := by
  induction bytes with
  | nil => intro m a b; simp [putBytes]
  | cons v bs ih =>
    intro m a b
    rw [putBytes, ih, lookup_put]
    by_cases h1 : a + 1 ≤ b ∧ b < a + 1 + bs.length
    · have h2 : a ≤ b ∧ b < a + (v :: bs).length := by simp; omega
      rw [dif_pos h1, dif_pos h2]
      have : b - a = (b - (a + 1)) + 1 := by omega
      simp [this]
    · rw [dif_neg h1]
      by_cases hb : b = a
      · subst hb
        simp
      · have h2 : ¬ (a ≤ b ∧ b < a + (v :: bs).length) := by simp at *; omega
        rw [dif_neg h2, if_neg hb]

/-! ### The canonical form. -/

theorem wf_nil (p : Config.Params) : wf [] p := ⟨.nil, by simp⟩

theorem wf_dropCell {p : Config.Params} {m : Memory} (h : wf m p) (a : Nat) : wf (dropCell m a) p := by
  refine ⟨?_, fun c hc => h.2 c (mem_dropCell.mp hc).1⟩
  have := h.1
  clear h
  induction m with
  | nil => exact .nil
  | cons d m ih =>
    rw [List.pairwise_cons] at this
    by_cases hd : d.1 = a
    · rw [dropCell, if_pos hd]; exact ih this.2
    · rw [dropCell, if_neg hd, List.pairwise_cons]
      exact ⟨fun c hc => this.1 c (mem_dropCell.mp hc).1, ih this.2⟩

theorem mem_addCell {m : Memory} {a : Nat} {v : Byte} {c : Host.Cell} : c ∈ addCell m a v ↔ c = (a, v) ∨ c ∈ m := by
  induction m with
  | nil => simp [addCell]
  | cons d m ih =>
    by_cases h : a < d.1
    · simp [addCell, h]
    · simp [addCell, h, ih]; tauto

theorem pairwise_addCell {m : Memory} (h : m.Pairwise fun c d => c.1 < d.1) (a : Nat) (v : Byte) (ha : ∀ c ∈ m, c.1 ≠ a) :
    (addCell m a v).Pairwise fun c d => c.1 < d.1 := by
  induction m with
  | nil => simp [addCell]
  | cons d m ih =>
    rw [List.pairwise_cons] at h
    by_cases hlt : a < d.1
    · rw [addCell, if_pos hlt, List.pairwise_cons, List.pairwise_cons]
      refine ⟨fun c hc => ?_, h.1, h.2⟩
      rcases List.mem_cons.mp hc with rfl | hc
      · exact hlt
      · exact hlt.trans (h.1 c hc)
    · rw [addCell, if_neg hlt, List.pairwise_cons]
      refine ⟨fun c hc => ?_, ih h.2 fun c hc => ha c (by simp [hc])⟩
      have := ha d (by simp)
      rcases mem_addCell.mp hc with rfl | hc
      · show d.1 < a; omega
      · exact h.1 c hc

/-- Writing one byte below the capacity keeps the canonical form. -/
theorem wf_put {p : Config.Params} {m : Memory} (h : wf m p) {a : Nat} (ha : a < p.cap) (v : Byte) :
    wf (put m a v) p := by
  unfold put
  have hd := wf_dropCell h a
  split
  · exact hd
  · next hv =>
    refine ⟨pairwise_addCell hd.1 a v fun c hc => (mem_dropCell.mp hc).2, fun c hc => ?_⟩
    rcases mem_addCell.mp hc with rfl | hc
    · exact ⟨ha, hv⟩
    · exact hd.2 c hc

/-- Writing bytes that all lie below the capacity keeps the canonical form. -/
theorem wf_putBytes {p : Config.Params} (bytes : List Byte) : ∀ {m : Memory} {a : Nat}, wf m p →
    a + bytes.length ≤ p.cap → wf (putBytes m a bytes) p := by
  induction bytes with
  | nil => exact fun h _ => h
  | cons b bs ih =>
    intro m a h ha
    simp only [List.length_cons] at ha
    exact ih (wf_put h (by omega) b) (by omega)

/-- `MemWrite` keeps the canonical form. -/
theorem wf_write {p : Config.Params} {m m' : Memory} {a : Nat} {v : Byte} (h : wf m p) (hw : write p m a v = some m') :
    wf m' p := by
  unfold write at hw
  split at hw
  · cases hw
  · cases hw; exact wf_put h (by omega) v

/-- `WriteBlock` keeps the canonical form. -/
theorem wf_writeBlock {p : Config.Params} {m : Memory} {bytes : List Byte} {a : Nat} {r : Memory × Nat} (h : wf m p)
    (hw : writeBlock p m bytes a = some r) : wf r.1 p := by
  unfold writeBlock at hw
  split at hw
  · cases hw
  · cases hw
    apply wf_putBytes _ h
    simp only [List.length_take]
    omega

/-- The blanking of reset keeps the canonical form. -/
theorem wf_zeroed (p : Config.Params) : wf (zeroed p) p := by
  by_cases h : p.cap ≤ Config.fontAddr
  · have : p.cap - Config.fontAddr = 0 := by omega
    rw [zeroed, this]
    exact wf_nil p
  · apply wf_putBytes _ (wf_nil p)
    simp only [List.length_replicate]
    omega

/-- No address below the head of a rising memory is listed. -/
theorem lookup_of_lt_head {m : Memory} {a : Nat} (h : ∀ c ∈ m, a < c.1) : lookup m a = unlisted a := by
  induction m with
  | nil => rfl
  | cons c m ih =>
    have := h c (by simp)
    rw [lookup_cons, if_neg (by omega), ih fun d hd => h d (by simp [hd])]

/-- After the blanking of reset every address below the capacity reads 0 (R261). -/
theorem lookup_zeroed {p : Config.Params} {a : Nat} (h : a < p.cap) : lookup (zeroed p) a = 0 := by
  rw [zeroed, lookup_putBytes]
  split
  · simp
  · next hn =>
    simp only [List.length_replicate] at hn
    rw [lookup_nil, unlisted, dif_neg (by omega)]

/-! ### The contract's operations, each by its two outcomes. -/

theorem read_of_lt {p : Config.Params} {m : Memory} {a : Nat} (h : a < p.cap) : read p m a = some (lookup m a) := by
  simp [read, show ¬ p.cap ≤ a by omega]

theorem read_of_le {p : Config.Params} {m : Memory} {a : Nat} (h : p.cap ≤ a) : read p m a = none := by simp [read, h]

theorem write_of_lt {p : Config.Params} {m : Memory} {a : Nat} {v : Byte} (h : a < p.cap) : write p m a v = some (put m a v) := by
  simp [write, show ¬ p.cap ≤ a by omega]

theorem write_of_le {p : Config.Params} {m : Memory} {a : Nat} {v : Byte} (h : p.cap ≤ a) : write p m a v = none := by
  simp [write, h]

end Memory

end Sys2Proof.Machine
end

