-- ==== Sys2Proof/Laws/State.lean ====
section
/-! SUPPORT. One lemma per field per update of `State`, all true by `rfl`, so that no later proof unfolds a record update. -/

namespace Sys2Proof.Machine

variable {p : Config.Params}

/-! ### This hardware's parameters, as the constants of Config -/

theorem canonical_cap : Config.Params.canonical.cap = Config.cap := rfl
theorem canonical_width : Config.Params.canonical.width = Config.width := rfl
theorem canonical_height : Config.Params.canonical.height = Config.height := rfl

/-! ### `State.cleared` -/

@[simp] theorem State.cleared_v (m : Memory) : (State.cleared p m).v = Vector.replicate Config.numRegs 0 := rfl
@[simp] theorem State.cleared_pc (m : Memory) : (State.cleared p m).pc = BitVec.ofNat 16 p.loadAddr := rfl
@[simp] theorem State.cleared_i (m : Memory) : (State.cleared p m).i = 0 := rfl
@[simp] theorem State.cleared_sp (m : Memory) : (State.cleared p m).sp = 0 := rfl
@[simp] theorem State.cleared_stack (m : Memory) : (State.cleared p m).stack = Vector.replicate Config.stackDepth 0 := rfl
@[simp] theorem State.cleared_mem (m : Memory) : (State.cleared p m).mem = m := rfl
@[simp] theorem State.cleared_fb (m : Memory) : (State.cleared p m).fb = 0 := rfl
@[simp] theorem State.cleared_dirty (m : Memory) : (State.cleared p m).dirty = false := rfl
@[simp] theorem State.cleared_fault (m : Memory) : (State.cleared p m).fault = none := rfl

/-! ### `State.reset` -/

@[simp] theorem State.reset_v : State.reset.v = Vector.replicate Config.numRegs 0 := rfl
@[simp] theorem State.reset_pc : State.reset.pc = 0x200 := rfl
@[simp] theorem State.reset_i : State.reset.i = 0 := rfl
@[simp] theorem State.reset_sp : State.reset.sp = 0 := rfl
@[simp] theorem State.reset_stack : State.reset.stack = Vector.replicate Config.stackDepth 0 := rfl
@[simp] theorem State.reset_mem : State.reset.mem = [] := rfl
@[simp] theorem State.reset_fb : State.reset.fb = 0 := rfl
@[simp] theorem State.reset_dirty : State.reset.dirty = false := rfl
@[simp] theorem State.reset_fault : State.reset.fault = none := rfl

/-! ### `State.setReg` -/

@[simp] theorem State.setReg_v (s : State p) (k : Reg) (b : Byte) : (s.setReg k b).v = s.v.set k.toNat b (reg_lt k) := rfl
@[simp] theorem State.setReg_pc (s : State p) (k : Reg) (b : Byte) : (s.setReg k b).pc = s.pc := rfl
@[simp] theorem State.setReg_i (s : State p) (k : Reg) (b : Byte) : (s.setReg k b).i = s.i := rfl
@[simp] theorem State.setReg_sp (s : State p) (k : Reg) (b : Byte) : (s.setReg k b).sp = s.sp := rfl
@[simp] theorem State.setReg_stack (s : State p) (k : Reg) (b : Byte) : (s.setReg k b).stack = s.stack := rfl
@[simp] theorem State.setReg_mem (s : State p) (k : Reg) (b : Byte) : (s.setReg k b).mem = s.mem := rfl
@[simp] theorem State.setReg_fb (s : State p) (k : Reg) (b : Byte) : (s.setReg k b).fb = s.fb := rfl
@[simp] theorem State.setReg_dirty (s : State p) (k : Reg) (b : Byte) : (s.setReg k b).dirty = s.dirty := rfl
@[simp] theorem State.setReg_fault (s : State p) (k : Reg) (b : Byte) : (s.setReg k b).fault = s.fault := rfl

/-! ### `State.setPc` -/

@[simp] theorem State.setPc_v (s : State p) (t : Word) : (s.setPc t).v = s.v := rfl
@[simp] theorem State.setPc_pc (s : State p) (t : Word) : (s.setPc t).pc = t := rfl
@[simp] theorem State.setPc_i (s : State p) (t : Word) : (s.setPc t).i = s.i := rfl
@[simp] theorem State.setPc_sp (s : State p) (t : Word) : (s.setPc t).sp = s.sp := rfl
@[simp] theorem State.setPc_stack (s : State p) (t : Word) : (s.setPc t).stack = s.stack := rfl
@[simp] theorem State.setPc_mem (s : State p) (t : Word) : (s.setPc t).mem = s.mem := rfl
@[simp] theorem State.setPc_fb (s : State p) (t : Word) : (s.setPc t).fb = s.fb := rfl
@[simp] theorem State.setPc_dirty (s : State p) (t : Word) : (s.setPc t).dirty = s.dirty := rfl
@[simp] theorem State.setPc_fault (s : State p) (t : Word) : (s.setPc t).fault = s.fault := rfl

/-! ### `State.advance` -/

@[simp] theorem State.advance_v (s : State p) : (s.advance).v = s.v := rfl
@[simp] theorem State.advance_pc (s : State p) : (s.advance).pc = s.pc + 2 := rfl
@[simp] theorem State.advance_i (s : State p) : (s.advance).i = s.i := rfl
@[simp] theorem State.advance_sp (s : State p) : (s.advance).sp = s.sp := rfl
@[simp] theorem State.advance_stack (s : State p) : (s.advance).stack = s.stack := rfl
@[simp] theorem State.advance_mem (s : State p) : (s.advance).mem = s.mem := rfl
@[simp] theorem State.advance_fb (s : State p) : (s.advance).fb = s.fb := rfl
@[simp] theorem State.advance_dirty (s : State p) : (s.advance).dirty = s.dirty := rfl
@[simp] theorem State.advance_fault (s : State p) : (s.advance).fault = s.fault := rfl

/-! ### `State.setI` -/

@[simp] theorem State.setI_v (s : State p) (w : Word) : (s.setI w).v = s.v := rfl
@[simp] theorem State.setI_pc (s : State p) (w : Word) : (s.setI w).pc = s.pc := rfl
@[simp] theorem State.setI_i (s : State p) (w : Word) : (s.setI w).i = w := rfl
@[simp] theorem State.setI_sp (s : State p) (w : Word) : (s.setI w).sp = s.sp := rfl
@[simp] theorem State.setI_stack (s : State p) (w : Word) : (s.setI w).stack = s.stack := rfl
@[simp] theorem State.setI_mem (s : State p) (w : Word) : (s.setI w).mem = s.mem := rfl
@[simp] theorem State.setI_fb (s : State p) (w : Word) : (s.setI w).fb = s.fb := rfl
@[simp] theorem State.setI_dirty (s : State p) (w : Word) : (s.setI w).dirty = s.dirty := rfl
@[simp] theorem State.setI_fault (s : State p) (w : Word) : (s.setI w).fault = s.fault := rfl

/-! ### `State.pixelSet` -/

@[simp] theorem State.pixelSet_v (s : State p) (x : Col p) (y : Row p) (b : Pixel) : (s.pixelSet x y b).v = s.v := rfl
@[simp] theorem State.pixelSet_pc (s : State p) (x : Col p) (y : Row p) (b : Pixel) : (s.pixelSet x y b).pc = s.pc := rfl
@[simp] theorem State.pixelSet_i (s : State p) (x : Col p) (y : Row p) (b : Pixel) : (s.pixelSet x y b).i = s.i := rfl
@[simp] theorem State.pixelSet_sp (s : State p) (x : Col p) (y : Row p) (b : Pixel) : (s.pixelSet x y b).sp = s.sp := rfl
@[simp] theorem State.pixelSet_stack (s : State p) (x : Col p) (y : Row p) (b : Pixel) : (s.pixelSet x y b).stack = s.stack := rfl
@[simp] theorem State.pixelSet_mem (s : State p) (x : Col p) (y : Row p) (b : Pixel) : (s.pixelSet x y b).mem = s.mem := rfl
@[simp] theorem State.pixelSet_fb (s : State p) (x : Col p) (y : Row p) (b : Pixel) : (s.pixelSet x y b).fb = s.fb.set (pixelIndex x y) b := rfl
@[simp] theorem State.pixelSet_dirty (s : State p) (x : Col p) (y : Row p) (b : Pixel) : (s.pixelSet x y b).dirty = true := rfl
@[simp] theorem State.pixelSet_fault (s : State p) (x : Col p) (y : Row p) (b : Pixel) : (s.pixelSet x y b).fault = s.fault := rfl

/-! ### `State.clearScreen` -/

@[simp] theorem State.clearScreen_v (s : State p) : (s.clearScreen).v = s.v := rfl
@[simp] theorem State.clearScreen_pc (s : State p) : (s.clearScreen).pc = s.pc := rfl
@[simp] theorem State.clearScreen_i (s : State p) : (s.clearScreen).i = s.i := rfl
@[simp] theorem State.clearScreen_sp (s : State p) : (s.clearScreen).sp = s.sp := rfl
@[simp] theorem State.clearScreen_stack (s : State p) : (s.clearScreen).stack = s.stack := rfl
@[simp] theorem State.clearScreen_mem (s : State p) : (s.clearScreen).mem = s.mem := rfl
@[simp] theorem State.clearScreen_fb (s : State p) : (s.clearScreen).fb = 0 := rfl
@[simp] theorem State.clearScreen_dirty (s : State p) : (s.clearScreen).dirty = true := rfl
@[simp] theorem State.clearScreen_fault (s : State p) : (s.clearScreen).fault = s.fault := rfl

/-! ### `State.raise` -/

@[simp] theorem State.raise_v (s : State p) (r : FaultRecord) : (s.raise r).v = s.v := rfl
@[simp] theorem State.raise_pc (s : State p) (r : FaultRecord) : (s.raise r).pc = s.pc := rfl
@[simp] theorem State.raise_i (s : State p) (r : FaultRecord) : (s.raise r).i = s.i := rfl
@[simp] theorem State.raise_sp (s : State p) (r : FaultRecord) : (s.raise r).sp = s.sp := rfl
@[simp] theorem State.raise_stack (s : State p) (r : FaultRecord) : (s.raise r).stack = s.stack := rfl
@[simp] theorem State.raise_mem (s : State p) (r : FaultRecord) : (s.raise r).mem = s.mem := rfl
@[simp] theorem State.raise_fb (s : State p) (r : FaultRecord) : (s.raise r).fb = s.fb := rfl
@[simp] theorem State.raise_dirty (s : State p) (r : FaultRecord) : (s.raise r).dirty = s.dirty := rfl
@[simp] theorem State.raise_fault (s : State p) (r : FaultRecord) : (s.raise r).fault = some r := rfl

/-! ### `State.ackFrame` -/

@[simp] theorem State.ackFrame_v (s : State p) : (s.ackFrame).v = s.v := rfl
@[simp] theorem State.ackFrame_pc (s : State p) : (s.ackFrame).pc = s.pc := rfl
@[simp] theorem State.ackFrame_i (s : State p) : (s.ackFrame).i = s.i := rfl
@[simp] theorem State.ackFrame_sp (s : State p) : (s.ackFrame).sp = s.sp := rfl
@[simp] theorem State.ackFrame_stack (s : State p) : (s.ackFrame).stack = s.stack := rfl
@[simp] theorem State.ackFrame_mem (s : State p) : (s.ackFrame).mem = s.mem := rfl
@[simp] theorem State.ackFrame_fb (s : State p) : (s.ackFrame).fb = s.fb := rfl
@[simp] theorem State.ackFrame_dirty (s : State p) : (s.ackFrame).dirty = false := rfl
@[simp] theorem State.ackFrame_fault (s : State p) : (s.ackFrame).fault = s.fault := rfl

/-! ### `State.placeWord` -/

@[simp] theorem State.placeWord_v (s : State p) (w : Word) : (s.placeWord w).v = s.v := rfl
@[simp] theorem State.placeWord_pc (s : State p) (w : Word) : (s.placeWord w).pc = s.pc := rfl
@[simp] theorem State.placeWord_i (s : State p) (w : Word) : (s.placeWord w).i = s.i := rfl
@[simp] theorem State.placeWord_sp (s : State p) (w : Word) : (s.placeWord w).sp = s.sp := rfl
@[simp] theorem State.placeWord_stack (s : State p) (w : Word) : (s.placeWord w).stack = s.stack := rfl
@[simp] theorem State.placeWord_mem (s : State p) (w : Word) : (s.placeWord w).mem = s.mem.putBytes s.pc.toNat (bytesOfWord w) := rfl
@[simp] theorem State.placeWord_fb (s : State p) (w : Word) : (s.placeWord w).fb = s.fb := rfl
@[simp] theorem State.placeWord_dirty (s : State p) (w : Word) : (s.placeWord w).dirty = s.dirty := rfl
@[simp] theorem State.placeWord_fault (s : State p) (w : Word) : (s.placeWord w).fault = none := rfl

/-! ### The three ways of raising are `State.raise` of a record. -/

theorem State.raiseFetch_eq (s : State p) : s.raiseFetch = s.raise
    { kind := .outOfBounds, instrAddr := s.pc, opcode := 0, badAddr := s.pc.setWidth 17, access := .fetch } := rfl

theorem State.raiseData_eq (s : State p) (opcode : Word) (bad : Nat) (a : Access) : s.raiseData opcode bad a = s.raise
    { kind := .outOfBounds, instrAddr := s.instrAddr, opcode := opcode, badAddr := BitVec.ofNat 17 bad, access := a } := rfl

theorem State.raisePlain_eq (s : State p) (kind : Fault) (opcode : Word) : s.raisePlain kind opcode = s.raise
    { kind := kind, instrAddr := s.instrAddr, opcode := opcode, badAddr := 0, access := .fetch } := rfl

/-! ### What the derived reads read. -/

@[simp] theorem State.halted_iff (s : State p) : s.halted = true ↔ s.fault ≠ none := by
  cases h : s.fault <;> simp [State.halted, h]

theorem State.instrAddr_eq (s : State p) : s.instrAddr = s.pc - 2 := rfl

/-- During `Execute` the instruction address is the `a` the step began at (R101). -/
@[simp] theorem State.instrAddr_advance (s : State p) : s.advance.instrAddr = s.pc := by
  simp [State.instrAddr]

theorem State.dataAddr_eq (s : State p) (k : Nat) : s.dataAddr k = s.i.toNat + k := rfl

/-- The state after `exec` differs from `s` in the registers alone exactly when every other field agrees. -/
theorem State.eq_with_v {s t : State p} (hpc : t.pc = s.pc) (hi : t.i = s.i) (hsp : t.sp = s.sp) (hst : t.stack = s.stack)
    (hm : t.mem = s.mem) (hfb : t.fb = s.fb) (hd : t.dirty = s.dirty) (hf : t.fault = s.fault) : t = { s with v := t.v } := by
  cases s; cases t; simp_all

/-! ### The registers: a read after a write. -/

@[simp] theorem State.reg_setReg_same (s : State p) (k : Reg) (b : Byte) : (s.setReg k b).reg k = b := by
  simp [State.reg]

@[simp] theorem State.reg_setReg_other (s : State p) {j k : Reg} (b : Byte) (h : j ≠ k) : (s.setReg k b).reg j = s.reg j := by
  have : k.toNat ≠ j.toNat := fun e => h (BitVec.eq_of_toNat_eq e.symm)
  simp [State.reg, Vector.getElem_set_ne _ _ this]

theorem State.reg_setReg (s : State p) (j k : Reg) (b : Byte) : (s.setReg k b).reg j = if j = k then b else s.reg j := by
  split
  · subst_vars; simp
  · simp [*]

@[simp] theorem State.reg_pixelSet (s : State p) (x : Col p) (y : Row p) (b : Pixel) (k : Reg) :
    (s.pixelSet x y b).reg k = s.reg k := rfl

@[simp] theorem State.reg_setPc (s : State p) (t : Word) (k : Reg) : (s.setPc t).reg k = s.reg k := rfl

@[simp] theorem State.reg_advance (s : State p) (k : Reg) : s.advance.reg k = s.reg k := rfl

@[simp] theorem State.reg_raise (s : State p) (r : FaultRecord) (k : Reg) : (s.raise r).reg k = s.reg k := rfl

/-- The register file is its sixteen reads. -/
theorem State.v_ext {s t : State p} (h : ∀ k, t.reg k = s.reg k) : t.v = s.v := by
  apply Vector.ext
  intro n hn
  have := h (BitVec.ofNat 4 n)
  simpa [State.reg, Nat.mod_eq_of_lt (show n < 16 from hn)] using this

/-! ### Reading memory depends on memory alone. -/

theorem State.memRead_eq (s : State p) (a : Nat) : s.memRead a = Memory.read p s.mem a := rfl

theorem State.memRead_of_mem_eq {s t : State p} (h : t.mem = s.mem) (a : Nat) : t.memRead a = s.memRead a := by
  simp [State.memRead, h]

theorem State.pixelGet_of_fb_eq {s t : State p} (h : t.fb = s.fb) (x : Col p) (y : Row p) : t.pixelGet x y = s.pixelGet x y := by
  simp [State.pixelGet, h]

end Sys2Proof.Machine
end

