-- ==== Sys2Proof/Laws/Ops.lean ====
section
/-! SUPPORT. For each shared operation, everything it can do, said once: the call stack, one byte of memory, the byte loops of
44_memory_transfer.md, the draw loops of 43_display.md, and one step. -/

namespace Sys2Proof.Machine

variable {p : Config.Params}

/-! ### The call stack. -/

theorem State.push_of_lt {s : State p} (h : s.sp.val < Config.stackDepth) (t : Word) :
    s.push t = some { s with stack := s.stack.set s.sp.val t, sp := ⟨s.sp.val + 1, by omega⟩ } := by
  simp [State.push, h]

theorem State.push_of_full {s : State p} (h : ¬ s.sp.val < Config.stackDepth) (t : Word) : s.push t = none := by
  simp only [State.push, dif_neg h]

theorem State.pop_of_pos {s : State p} (h : 0 < s.sp.val) :
    s.pop = some { s with sp := ⟨s.sp.val - 1, by omega⟩, pc := s.stack[s.sp.val - 1]'(by omega) } := by
  simp only [State.pop, dif_pos h]

theorem State.pop_of_empty {s : State p} (h : s.sp.val = 0) : s.pop = none := by
  simp [State.pop, h]

/-! ### One byte of memory. -/

theorem State.memRead_of_lt (s : State p) {a : Nat} (h : a < p.cap) : s.memRead a = some (s.mem.lookup a) :=
  Memory.read_of_lt h

theorem State.memRead_of_le (s : State p) {a : Nat} (h : p.cap ≤ a) : s.memRead a = none := Memory.read_of_le h

theorem State.memWrite_of_lt (s : State p) {a : Nat} (h : a < p.cap) (b : Byte) :
    s.memWrite a b = some { s with mem := s.mem.put a b } := by
  simp [State.memWrite, Memory.write_of_lt h]

theorem State.memWrite_of_le (s : State p) {a : Nat} (h : p.cap ≤ a) (b : Byte) : s.memWrite a b = none := by
  simp [State.memWrite, Memory.write_of_le h]

/-- The fetch reads the two bytes at `pc`, the lower address high (R52, R62). -/
theorem State.fetch_of_lt (s : State p) (h : s.pc.toNat + 1 < p.cap) :
    s.fetch = some (wordOfBytes (s.mem.lookup s.pc.toNat) (s.mem.lookup (s.pc.toNat + 1))) := by
  simp only [State.fetch, Memory.readWord, if_neg (show ¬ p.cap ≤ s.pc.toNat + 1 by omega)]

theorem State.fetch_of_le (s : State p) (h : p.cap ≤ s.pc.toNat + 1) : s.fetch = none := by
  simp only [State.fetch, Memory.readWord, if_pos h]

/-- A placed word is what the next fetch reads, wherever a word can be fetched at all (R62, R102). -/
theorem State.fetch_placeWord (s : State p) (w : Word) (h : s.pc.toNat + 1 < p.cap) : (s.placeWord w).fetch = some w := by
  rw [State.fetch_of_lt (s.placeWord w) h]
  simp only [State.placeWord_mem, State.placeWord_pc, Memory.lookup_putBytes, bytesOfWord, List.length_cons, List.length_nil]
  rw [dif_pos (by omega), dif_pos (by omega)]
  simp only [Nat.sub_self, Nat.add_sub_cancel_left, List.getElem_cons_zero, List.getElem_cons_succ, Option.some.injEq]
  apply BitVec.eq_of_toNat_eq
  simp [wordOfBytes]
  omega
/-! ### Storing bytes (R190, R191, R237). -/

/-- Every byte in bounds: the bytes are in memory and nothing else has changed. -/
theorem storeBytes_of_fits (op : Word) (bytes : List Byte) : ∀ (k : Nat) (s : State p),
    s.dataAddr k + bytes.length ≤ p.cap →
    storeBytes op k bytes s = { s with mem := s.mem.putBytes (s.dataAddr k) bytes } := by
  induction bytes with
  | nil => intro k s _; rfl
  | cons b bs ih =>
    intro k s h
    simp only [List.length_cons] at h
    rw [storeBytes, State.memWrite_of_lt s (show s.dataAddr k < p.cap by omega)]
    simp only
    rw [ih]
    · rfl
    · simp only [State.dataAddr_eq] at *; omega

/-- Some byte out of bounds: the bytes below the capacity are in memory, and the fault names the first address that is not. -/
theorem storeBytes_of_overflow (op : Word) (bytes : List Byte) : ∀ (k : Nat) (s : State p),
    bytes ≠ [] → p.cap < s.dataAddr k + bytes.length →
    storeBytes op k bytes s =
      State.raiseData { s with mem := s.mem.putBytes (s.dataAddr k) (bytes.take (p.cap - s.dataAddr k)) } op
        (max p.cap (s.dataAddr k)) .dataWrite := by
  induction bytes with
  | nil => intro k s h _; exact absurd rfl h
  | cons b bs ih =>
    intro k s _ h
    simp only [List.length_cons] at h
    by_cases hk : s.dataAddr k < p.cap
    · have hbs : bs ≠ [] := by rintro rfl; simp at h; omega
      rw [storeBytes, State.memWrite_of_lt s hk]
      simp only
      rw [ih _ _ hbs (by simp only [State.dataAddr_eq] at *; omega)]
      obtain ⟨n, hn⟩ : ∃ n, p.cap - s.dataAddr k = n + 1 := ⟨p.cap - s.dataAddr k - 1, by omega⟩
      have hn' : p.cap - (s.i.toNat + (k + 1)) = n := by simp only [State.dataAddr_eq] at hn; omega
      have hmax : max p.cap (s.i.toNat + (k + 1)) = max p.cap (s.dataAddr k) := by
        simp only [State.dataAddr_eq] at *; omega
      simp only [State.dataAddr] at *
      rw [hn, hn', hmax, List.take_succ_cons, Memory.putBytes]
      rfl
    · have h0 : p.cap - s.dataAddr k = 0 := by omega
      have hm : max p.cap (s.dataAddr k) = s.dataAddr k := by omega
      rw [storeBytes, State.memWrite_of_le s (by omega), h0, hm]
      rfl

/-! ### Loading registers (R192, R237). -/

/-- What the register file holds after the registers `k`, `k + 1`, ..., `k + count - 1` are loaded from `i + k` on. -/
def loadedV (s : State p) (count k : Nat) : Vector Byte Config.numRegs :=
  match count with
  | 0 => s.v
  | count + 1 => loadedV (s.setReg (BitVec.ofNat 4 k) (s.mem.lookup (s.dataAddr k))) count (k + 1)

theorem loadRegs_of_fits (op : Word) : ∀ (count k : Nat) (s : State p), s.dataAddr k + count ≤ p.cap →
    loadRegs op count k s = { s with v := loadedV s count k } := by
  intro count
  induction count with
  | zero => intro k s _; rfl
  | succ n ih =>
    intro k s h
    rw [loadRegs, State.memRead_of_lt s (show s.dataAddr k < p.cap by omega)]
    simp only
    rw [ih _ _ (by simp only [State.dataAddr_eq, State.setReg_i] at *; omega)]
    rfl

theorem loadRegs_of_overflow (op : Word) : ∀ (count k : Nat) (s : State p), 0 < count →
    p.cap < s.dataAddr k + count →
    loadRegs op count k s = State.raiseData { s with v := loadedV s (p.cap - s.dataAddr k) k } op
      (max p.cap (s.dataAddr k)) .dataRead := by
  intro count
  induction count with
  | zero => intro k s h _; omega
  | succ n ih =>
    intro k s _ h
    by_cases hk : s.dataAddr k < p.cap
    · obtain ⟨m, hm⟩ : ∃ m, p.cap - s.dataAddr k = m + 1 := ⟨p.cap - s.dataAddr k - 1, by omega⟩
      rw [loadRegs, State.memRead_of_lt s hk]
      simp only
      rw [ih _ _ (by omega) (by simp only [State.dataAddr_eq, State.setReg_i] at *; omega), hm, loadedV]
      have hm' : p.cap - (s.i.toNat + (k + 1)) = m := by simp only [State.dataAddr_eq] at hm; omega
      have hmax : max p.cap (s.i.toNat + (k + 1)) = max p.cap (s.dataAddr k) := by
        simp only [State.dataAddr_eq] at *; omega
      simp only [State.dataAddr, State.setReg_i] at *
      rw [hm', hmax]
      rfl
    · have h0 : p.cap - s.dataAddr k = 0 := by omega
      have hm : max p.cap (s.dataAddr k) = s.dataAddr k := by omega
      rw [loadRegs, State.memRead_of_le s (by omega), h0, hm]
      rfl

/-- The loaded registers, one by one. -/
theorem reg_loadedV : ∀ (count k : Nat) (s : State p) (j : Reg), k + count ≤ Config.numRegs →
    (loadedV s count k)[j.toNat]'(reg_lt j) =
      if k ≤ j.toNat ∧ j.toNat < k + count then s.mem.lookup (s.dataAddr j.toNat) else s.reg j := by
  intro count
  induction count with
  | zero => intro k s j _; rw [if_neg (by omega)]; rfl
  | succ n ih =>
    intro k s j h
    simp only [Config.numRegs] at h
    rw [loadedV, ih _ _ _ (by simp only [Config.numRegs]; omega)]
    have hk : (BitVec.ofNat 4 k).toNat = k := by simp; omega
    by_cases h1 : k + 1 ≤ j.toNat ∧ j.toNat < k + 1 + n
    · rw [if_pos h1, if_pos (by omega)]; rfl
    · rw [if_neg h1]
      by_cases hj : j = BitVec.ofNat 4 k
      · rw [if_pos (by rw [hj, hk]; omega), hj, State.reg_setReg_same, hk]
      · have : j.toNat ≠ k := fun e => hj (BitVec.eq_of_toNat_eq (by rw [hk, e]))
        rw [if_neg (by omega), State.reg_setReg_other _ _ hj]

/-! ### Drawing (R172). -/

/-- One sprite pixel writes `VF`, one pixel and `dirty`. -/
theorem drawPixel_eq (x y : Reg) (b : Byte) (row : Nat) (s : State p) (col : Nat) :
    drawPixel x y b row s col =
      { s with
        v := s.v.set vf.toNat (collisionFlag (s.reg vf) (spritePixel b col)
          (s.pixelGet (wrapCol ((s.reg x).toNat + col)) (wrapRow ((s.reg y).toNat + row)))) (reg_lt vf)
        fb := s.fb.set (pixelIndex (p := p) (wrapCol ((s.reg x).toNat + col)) (wrapRow ((s.reg y).toNat + row)))
          (s.pixelGet (wrapCol ((s.reg x).toNat + col)) (wrapRow ((s.reg y).toNat + row)) ^^^ spritePixel b col)
        dirty := true } := rfl

/-- `s` and `t` agree but for `VF`, the frame and `dirty`. -/
def SameButDrawn (s t : State p) : Prop :=
  (∀ k, k ≠ vf → t.reg k = s.reg k) ∧ t = { s with v := t.v, fb := t.fb, dirty := t.dirty }

theorem SameButDrawn.refl (s : State p) : SameButDrawn s s := ⟨fun _ _ => rfl, rfl⟩

theorem SameButDrawn.trans {s t u : State p} (h : SameButDrawn s t) (h' : SameButDrawn t u) : SameButDrawn s u := by
  refine ⟨fun k hk => (h'.1 k hk).trans (h.1 k hk), ?_⟩
  rw [h'.2, h.2]

theorem sameButDrawn_setVf (s : State p) (b : Byte) : SameButDrawn s (s.setReg vf b) :=
  ⟨fun _ hk => State.reg_setReg_other _ _ hk, rfl⟩

theorem sameButDrawn_drawPixel (x y : Reg) (b : Byte) (row : Nat) (s : State p) (col : Nat) :
    SameButDrawn s (drawPixel x y b row s col) :=
  ⟨fun _ hk => State.reg_setReg_other s _ hk, rfl⟩

theorem sameButDrawn_drawRow (x y : Reg) (b : Byte) (row : Nat) (s : State p) : SameButDrawn s (drawRow x y b row s) := by
  unfold drawRow
  generalize List.range 8 = cols
  induction cols generalizing s with
  | nil => exact .refl s
  | cons c cs ih => exact (sameButDrawn_drawPixel x y b row s c).trans (ih _)

/-- A draw changes nothing but `VF`, the frame and `dirty`. -/
theorem sameButDrawn_drawRows (x y : Reg) (count : Nat) : ∀ (row : Nat) (s : State p), SameButDrawn s (drawRows x y count row s) := by
  induction count with
  | zero => exact fun _ s => .refl s
  | succ n ih =>
    intro row s
    rw [drawRows]
    split
    · exact .refl s
    · exact (sameButDrawn_drawRow x y _ row s).trans (ih _ _)

/-! ### One step. -/

/-- Everything a step can do, whatever executes the instruction. -/
theorem stepBy_cases (execute : Instr → State p → Result p) (s : State p) :
    (s.fault ≠ none ∧ s.stepBy execute = .next s) ∨
    (s.fault = none ∧ s.fetch = none ∧ s.stepBy execute = .next s.raiseFetch) ∨
    (∃ w e, s.fault = none ∧ s.fetch = some w ∧ decode w = .error e ∧
      s.stepBy execute = .next (s.advance.raisePlain .unimplementedOpcode w)) ∨
    (∃ w i, s.fault = none ∧ s.fetch = some w ∧ decode w = .ok i ∧ s.stepBy execute = execute i s.advance) := by
  by_cases hf : s.fault = none
  · have hh : s.halted = false := by simp [State.halted, hf]
    cases hw : s.fetch with
    | none => exact .inr (.inl ⟨hf, rfl, by simp [State.stepBy, hh, hw]⟩)
    | some w =>
      cases hd : decode w with
      | error e => exact .inr (.inr (.inl ⟨w, e, hf, rfl, hd, by simp [State.stepBy, hh, hw, hd]⟩))
      | ok i => exact .inr (.inr (.inr ⟨w, i, hf, rfl, hd, by simp [State.stepBy, hh, hw, hd]⟩))
  · exact .inl ⟨hf, by simp [State.stepBy, (State.halted_iff s).mpr hf]⟩

/-- Everything a step of this hardware can do. -/
theorem step_cases (s : State) :
    (s.fault ≠ none ∧ step s = .next s) ∨
    (s.fault = none ∧ s.fetch = none ∧ step s = .next s.raiseFetch) ∨
    (∃ w e, s.fault = none ∧ s.fetch = some w ∧ decode w = .error e ∧
      step s = .next (s.advance.raisePlain .unimplementedOpcode w)) ∨
    (∃ w i, s.fault = none ∧ s.fetch = some w ∧ decode w = .ok i ∧ step s = exec i s.advance) :=
  stepBy_cases exec s

/-! ### Runs. -/

theorem run_succ_of_next {s t : State} (h : step s = .next t) (k : Nat) : run (k + 1) s = run k t := by
  rw [run, h]

theorem core_run_succ (M : Host.Core) (k : Nat) (s : M.State) : M.run (k + 1) s =
    match M.step s with
    | .next t    => M.run k t
    | .fault r   => .fault r
    | .refused r => .refused r := by
  cases h : M.step s <;> simp [Host.Core.run, h]

/-- `run` is the run of the machine behind the host's interface. -/
theorem core_run_eq (k : Nat) : ∀ s : State, Host.Core.run core k s = run k s := by
  induction k with
  | zero => exact fun _ => rfl
  | succ k ih =>
    intro s
    refine (core_run_succ core k s).trans ?_
    have h : core.step s = step s := rfl
    rw [run, h]
    cases step s with
    | next t    => exact ih t
    | fault r   => rfl
    | refused r => rfl

end Sys2Proof.Machine
end

