-- ==== Sys2Proof/Laws/PerInstr.lean ====
section
/-! SUPPORT. The family `EncodesInRow`: the word the encoder gives an instruction lies in the row of the opcode map that
30_encoding.md R86 gives that instruction. -/

namespace Sys2Proof.Laws.EncodesInRow

/-- The instruction's word has the fixed bits of the instruction's row. -/
def Statement (i : Instr) : Prop := i.row.covers (encode i) = true

/-! The three forms of word, each as its fields side by side (R82). -/

theorem wordNNN_eq (c : Nibble) (n : Imm12) : wordNNN c n = c ++ n := by
  apply BitVec.eq_of_toNat_eq
  have hc := c.isLt
  have hn := n.isLt
  rw [wordNNN, BitVec.toNat_append, BitVec.toNat_ofNat, ← Nat.shiftLeft_add_eq_or_of_lt hn, Nat.shiftLeft_eq]
  omega

theorem wordXNN_eq (c x : Nibble) (nn : Byte) : wordXNN c x nn = c ++ (x ++ nn) := by
  apply BitVec.eq_of_toNat_eq
  have hc := c.isLt
  have hx := x.isLt
  have hn := nn.isLt
  have hxn := (x ++ nn).isLt
  rw [wordXNN, BitVec.toNat_append, BitVec.toNat_ofNat, ← Nat.shiftLeft_add_eq_or_of_lt hxn, BitVec.toNat_append,
    ← Nat.shiftLeft_add_eq_or_of_lt hn, Nat.shiftLeft_eq, Nat.shiftLeft_eq]
  omega

theorem wordXYN_eq (c x y n : Nibble) : wordXYN c x y n = c ++ (x ++ (y ++ n)) := by
  have e : (y ++ n).toNat = y.toNat * 16 + n.toNat := by
    rw [BitVec.toNat_append, ← Nat.shiftLeft_add_eq_or_of_lt n.isLt, Nat.shiftLeft_eq]
  rw [← wordXNN_eq, wordXYN, wordXNN, e, Nat.add_assoc _ (y.toNat * 16)]

/-! The three masks of R86 on them. -/

theorem covers_iff (m p w : Word) : OpcodeRow.covers ⟨m, p⟩ w = true ↔ w &&& m = p := by simp [OpcodeRow.covers]

theorem and_F000 (c : Nibble) (r : BitVec 12) : (c ++ r) &&& (0xF000 : Word) = c ++ (0 : BitVec 12) := by
  rw [show (0xF000 : Word) = (0xF : Nibble) ++ (0 : BitVec 12) by decide, BitVec.and_append]
  congr 1
  · exact BitVec.and_allOnes
  · exact BitVec.and_zero

theorem and_F0FF (c x : Nibble) (r : Byte) : (c ++ (x ++ r)) &&& (0xF0FF : Word) = c ++ ((0 : Nibble) ++ r) := by
  rw [show (0xF0FF : Word) = (0xF : Nibble) ++ ((0 : Nibble) ++ (0xFF : Byte)) by decide, BitVec.and_append,
    BitVec.and_append]
  congr 1
  · exact BitVec.and_allOnes
  · congr 1
    · exact BitVec.and_zero
    · exact BitVec.and_allOnes

theorem and_F00F (c x y n : Nibble) :
    (c ++ (x ++ (y ++ n))) &&& (0xF00F : Word) = c ++ ((0 : Nibble) ++ ((0 : Nibble) ++ n)) := by
  rw [show (0xF00F : Word) = (0xF : Nibble) ++ ((0 : Nibble) ++ ((0 : Nibble) ++ (0xF : Nibble))) by decide,
    BitVec.and_append, BitVec.and_append, BitVec.and_append]
  congr 1
  · exact BitVec.and_allOnes
  · congr 1
    · exact BitVec.and_zero
    · congr 1
      · exact BitVec.and_zero
      · exact BitVec.and_allOnes

/-- A row keyed on the class alone. -/
theorem covers_F000 {c : Nibble} {p : Word} (r : BitVec 12) {w : Word} (hw : w = c ++ r) (hp : c ++ (0 : BitVec 12) = p) :
    OpcodeRow.covers ⟨0xF000, p⟩ w = true := by
  rw [covers_iff, hw, and_F000, hp]

/-- A row keyed on the class and `NN`. -/
theorem covers_F0FF {c x : Nibble} {nn : Byte} {p : Word} (hp : c ++ ((0 : Nibble) ++ nn) = p) :
    OpcodeRow.covers ⟨0xF0FF, p⟩ (wordXNN c x nn) = true := by
  rw [covers_iff, wordXNN_eq, and_F0FF, hp]

/-- A row keyed on the class and `N`. -/
theorem covers_F00F {c x y n : Nibble} {p : Word} (hp : c ++ ((0 : Nibble) ++ ((0 : Nibble) ++ n)) = p) :
    OpcodeRow.covers ⟨0xF00F, p⟩ (wordXYN c x y n) = true := by
  rw [covers_iff, wordXYN_eq, and_F00F, hp]

theorem cls (g : Nibble) : Statement (.cls g) := covers_F0FF (by decide)
theorem ret (g : Nibble) : Statement (.ret g) := covers_F0FF (by decide)
theorem jp (nnn : Imm12) : Statement (.jp nnn) := covers_F000 _ (wordNNN_eq _ _) (by decide)
theorem call (nnn : Imm12) : Statement (.call nnn) := covers_F000 _ (wordNNN_eq _ _) (by decide)
theorem seI (x : Reg) (nn : Byte) : Statement (.seI x nn) := covers_F000 _ (wordXNN_eq _ _ _) (by decide)
theorem sneI (x : Reg) (nn : Byte) : Statement (.sneI x nn) := covers_F000 _ (wordXNN_eq _ _ _) (by decide)
theorem seR (x y : Reg) (g : Nibble) : Statement (.seR x y g) := covers_F000 _ (wordXYN_eq _ _ _ _) (by decide)
theorem ldI (x : Reg) (nn : Byte) : Statement (.ldI x nn) := covers_F000 _ (wordXNN_eq _ _ _) (by decide)
theorem addI (x : Reg) (nn : Byte) : Statement (.addI x nn) := covers_F000 _ (wordXNN_eq _ _ _) (by decide)
theorem ldR (x y : Reg) : Statement (.ldR x y) := covers_F00F (by decide)
theorem orR (x y : Reg) : Statement (.orR x y) := covers_F00F (by decide)
theorem andR (x y : Reg) : Statement (.andR x y) := covers_F00F (by decide)
theorem xorR (x y : Reg) : Statement (.xorR x y) := covers_F00F (by decide)
theorem addR (x y : Reg) : Statement (.addR x y) := covers_F00F (by decide)
theorem sub (x y : Reg) : Statement (.sub x y) := covers_F00F (by decide)
theorem shr (x : Reg) (g : Nibble) : Statement (.shr x g) := covers_F00F (by decide)
theorem subn (x y : Reg) : Statement (.subn x y) := covers_F00F (by decide)
theorem shl (x : Reg) (g : Nibble) : Statement (.shl x g) := covers_F00F (by decide)
theorem sneR (x y : Reg) (g : Nibble) : Statement (.sneR x y g) := covers_F000 _ (wordXYN_eq _ _ _ _) (by decide)
theorem ldA (nnn : Imm12) : Statement (.ldA nnn) := covers_F000 _ (wordNNN_eq _ _) (by decide)
theorem drw (x y : Reg) (n : Nibble) : Statement (.drw x y n) := covers_F000 _ (wordXYN_eq _ _ _ _) (by decide)
theorem bcd (x : Reg) : Statement (.bcd x) := covers_F0FF (by decide)
theorem stM (x : Reg) : Statement (.stM x) := covers_F0FF (by decide)
theorem ldM (x : Reg) : Statement (.ldM x) := covers_F0FF (by decide)

end Sys2Proof.Laws.EncodesInRow
end

