-- ==== Sys2Proof/Tests/Slice0.lean ====
section
/-! SUPPORT. The model's own tests: the well-formedness check on ill-formed terms, the decoding of a written-out word for every
constructor, at most two one-step tests for each instruction, and for every statement with hypotheses a state and operands that
meet them. Every expected value is taken from spec/95_test_vectors.md (the vector's id stands in front of the theorem) or from
the rule named there; none is the model's own answer. -/

namespace Sys2Proof.Tests

open Sys2Proof Sys2Proof.Machine

/-! ### WellFormed refuses a don't-care bit that is not 0 (R92), one ill-formed term for each check. -/

theorem test_wellFormed_cls : (Instr.cls 0xA).wellFormed = false := by decide
theorem test_wellFormed_ret : (Instr.ret 0xF).wellFormed = false := by decide
theorem test_wellFormed_seR : (Instr.seR 0xA 0xB 7).wellFormed = false := by decide
theorem test_wellFormed_shr : (Instr.shr 1 2).wellFormed = false := by decide
theorem test_wellFormed_shl : (Instr.shl 1 0xF).wellFormed = false := by decide
theorem test_wellFormed_sneR : (Instr.sneR 0xA 0xB 1).wellFormed = false := by decide
theorem test_wellFormed_canonical : (Instr.shr 1 0).wellFormed = true ∧ (Instr.drw 1 2 0xF).wellFormed = true := by decide

/-! ### Decoding: the words of 95_test_vectors.md 2.2, one or more for each constructor, as the two bytes in memory. -/

theorem test_decode_cls : decodeBytes [0x00, 0xE0] = .ok (.cls 0) ∧ decodeBytes [0x0A, 0xE0] = .ok (.cls 0xA) := by decide
theorem test_decode_ret : decodeBytes [0x00, 0xEE] = .ok (.ret 0) ∧ decodeBytes [0x0F, 0xEE] = .ok (.ret 0xF) := by decide
theorem test_decode_jp : decodeBytes [0x1A, 0xBC] = .ok (.jp 0xABC) := by decide
theorem test_decode_call : decodeBytes [0x2F, 0xFF] = .ok (.call 0xFFF) := by decide
theorem test_decode_seI : decodeBytes [0x3A, 0x12] = .ok (.seI 0xA 0x12) := by decide
theorem test_decode_sneI : decodeBytes [0x4B, 0x00] = .ok (.sneI 0xB 0x00) := by decide
theorem test_decode_seR : decodeBytes [0x5A, 0xB0] = .ok (.seR 0xA 0xB 0) ∧ decodeBytes [0x5A, 0xB7] = .ok (.seR 0xA 0xB 7) := by
  decide
theorem test_decode_ldI : decodeBytes [0x6C, 0x99] = .ok (.ldI 0xC 0x99) := by decide
theorem test_decode_addI : decodeBytes [0x7D, 0x01] = .ok (.addI 0xD 0x01) := by decide
theorem test_decode_ldR : decodeBytes [0x8A, 0xB0] = .ok (.ldR 0xA 0xB) := by decide
theorem test_decode_orR : decodeBytes [0x8A, 0xB1] = .ok (.orR 0xA 0xB) := by decide
theorem test_decode_andR : decodeBytes [0x8A, 0xB2] = .ok (.andR 0xA 0xB) := by decide
theorem test_decode_xorR : decodeBytes [0x8A, 0xB3] = .ok (.xorR 0xA 0xB) := by decide
theorem test_decode_addR : decodeBytes [0x8A, 0xB4] = .ok (.addR 0xA 0xB) := by decide
theorem test_decode_sub : decodeBytes [0x8A, 0xB5] = .ok (.sub 0xA 0xB) := by decide
theorem test_decode_shr : decodeBytes [0x8A, 0xB6] = .ok (.shr 0xA 0xB) := by decide
theorem test_decode_subn : decodeBytes [0x8A, 0xB7] = .ok (.subn 0xA 0xB) := by decide
theorem test_decode_shl : decodeBytes [0x8A, 0xBE] = .ok (.shl 0xA 0xB) := by decide
theorem test_decode_sneR : decodeBytes [0x9A, 0xB0] = .ok (.sneR 0xA 0xB 0) ∧ decodeBytes [0x9A, 0xBF] = .ok (.sneR 0xA 0xB 0xF) := by
  decide
theorem test_decode_ldA : decodeBytes [0xA1, 0x23] = .ok (.ldA 0x123) := by decide
theorem test_decode_drw : decodeBytes [0xD1, 0x25] = .ok (.drw 1 2 5) := by decide
theorem test_decode_bcd : decodeBytes [0xF1, 0x33] = .ok (.bcd 1) := by decide
theorem test_decode_stM : decodeBytes [0xF1, 0x55] = .ok (.stM 1) := by decide
theorem test_decode_ldM : decodeBytes [0xFF, 0x65] = .ok (.ldM 0xF) := by decide

/-- Illegal words of the same table, and a byte sequence too short to hold a word. -/
theorem test_decode_illegal :
    decode 0x0000 = .error .illegalClass0 ∧ decode 0x00E1 = .error .illegalClass0 ∧ decode 0x0123 = .error .illegalClass0 ∧
    decode 0x8ABD = .error .illegalClass8 ∧ decode 0x8ABF = .error .illegalClass8 ∧ decode 0xB123 = .error .illegalClass ∧
    decode 0xC0FF = .error .illegalClass ∧ decode 0xE09E = .error .illegalClass ∧ decode 0xF01E = .error .illegalClassF ∧
    decode 0xFFFF = .error .illegalClassF ∧ decodeBytes [0x12] = .error .shortWord := by decide

theorem test_decodeTableWord : decodeTableWord 16 0x8126 = some (.shr 1 2) ∧ decodeTableWord 16 0xB123 = none := by decide

/-! ### One step. -/

/-- The reset state with the word at 0x200, and some registers. -/
def before (w : Nat) (regs : List (Reg × Byte)) : State :=
  regs.foldl (fun s r => s.setReg r.1 r.2) (State.reset.withFetchWord 16 w)

/-- The state after one step. -/
def after (s : State) : State := match step s with | .next t => t | _ => s

/-- A fault record. -/
def rec' (kind : Fault) (a w : Word) (bad : BitVec 17) (acc : Access) : Option FaultRecord := some ⟨kind, a, w, bad, acc⟩

/-- One pixel set. -/
def lit (k : Nat) : Frame := BitVec.twoPow _ k

/-- S13, S4, G13, G14: the screen is clear and the flag register untouched, for any don't-care bits. -/
theorem test_cls : let t := after { before 0x0FE0 [(0xF, 1)] with fb := lit 0 ||| lit 5 ||| lit 2047 }
    t.fb = 0 ∧ t.dirty = true ∧ t.pc = 0x202 ∧ t.reg 0xF = 1 ∧ t.fault = none := by decide +kernel

/-- F7: the popped slot keeps its value. -/
theorem test_ret : let s := before 0x0AEE []
    let t := after { s with sp := 2, stack := (s.stack.set 0 0x345).set 1 0x456 }
    t.sp = 1 ∧ t.pc = 0x456 ∧ t.stack[1] = 0x456 := by decide
/-- F6. -/
theorem test_ret_underflow : let t := after (before 0x00EE [])
    t.sp = 0 ∧ t.pc = 0x202 ∧ t.fault = rec' .stackUnderflow 0x200 0x00EE 0 .fetch := by decide

/-- S5. -/
theorem test_jp : (after (before 0x1ABC [])).pc = 0xABC := by decide

/-- F3: the sixteenth nested call. -/
theorem test_call : let t := after { before 0x2ABC [] with sp := 15 }
    t.stack[15] = 0x202 ∧ t.sp = 16 ∧ t.pc = 0xABC ∧ t.fault = none := by decide
/-- F4. -/
theorem test_call_overflow : let s := { before 0x2ABC [] with sp := 16, stack := Vector.replicate 16 0x111 }
    let t := after s
    t.stack = s.stack ∧ t.sp = 16 ∧ t.pc = 0x202 ∧ t.fault = rec' .stackOverflow 0x200 0x2ABC 0 .fetch := by decide

/-- F9, F10. -/
theorem test_seI : (after (before 0x3A42 [(0xA, 0x42)])).pc = 0x204 ∧ (after (before 0x3A42 [(0xA, 0x43)])).pc = 0x202 := by
  decide
/-- F11, F12. -/
theorem test_sneI : (after (before 0x4A42 [(0xA, 0x42)])).pc = 0x202 ∧ (after (before 0x4A42 [(0xA, 0x43)])).pc = 0x204 := by
  decide
/-- F16, F14. -/
theorem test_seR : (after (before 0x5AB7 [(0xA, 7), (0xB, 7)])).pc = 0x204 ∧
    (after (before 0x5AB0 [(0xA, 7), (0xB, 8)])).pc = 0x202 := by decide
/-- F17, F18. -/
theorem test_sneR : (after (before 0x9AB0 [(0xA, 7), (0xB, 7)])).pc = 0x202 ∧
    (after (before 0x9AB0 [(0xA, 7), (0xB, 8)])).pc = 0x204 := by decide

/-- A1. -/
theorem test_ldI : (after (before 0x6A42 [])).reg 0xA = 0x42 := by decide
/-- A3: no carry flag. -/
theorem test_addI : let t := after (before 0x7001 [(0, 0xFF), (0xF, 0x55)]); t.reg 0 = 0x00 ∧ t.reg 0xF = 0x55 := by decide
/-- A5: `VF` as the destination. -/
theorem test_addI_vf : (after (before 0x7F02 [(0xF, 0xFF)])).reg 0xF = 0x01 := by decide
/-- A6. -/
theorem test_ldR : let t := after (before 0x8120 [(1, 0x01), (2, 0x77)]); t.reg 1 = 0x77 ∧ t.reg 2 = 0x77 := by decide
/-- A8. -/
theorem test_orR : let t := after (before 0x8121 [(1, 0xF0), (2, 0x0F), (0xF, 0x33)]); t.reg 1 = 0xFF ∧ t.reg 0xF = 0x33 := by
  decide
/-- A9. -/
theorem test_andR : let t := after (before 0x8122 [(1, 0xF0), (2, 0x3C), (0xF, 0x33)]); t.reg 1 = 0x30 ∧ t.reg 0xF = 0x33 := by
  decide
/-- A10. -/
theorem test_xorR : let t := after (before 0x8123 [(1, 0xFF), (2, 0x0F), (0xF, 0x33)]); t.reg 1 = 0xF0 ∧ t.reg 0xF = 0x33 := by
  decide
/-- A13, A12: 256 carries, 255 does not. -/
theorem test_addR : let t := after (before 0x8124 [(1, 0xFF), (2, 0x01)]); let u := after (before 0x8124 [(1, 0xFF), (2, 0), (0xF, 1)])
    t.reg 1 = 0x00 ∧ t.reg 0xF = 1 ∧ u.reg 1 = 0xFF ∧ u.reg 0xF = 0 := by decide
/-- A15: the carry overwrites the sum. -/
theorem test_addR_vf : (after (before 0x8F14 [(0xF, 0xF0), (1, 0x20)])).reg 0xF = 1 := by decide
/-- A20, A22: the order of the operands, and 0 on equal ones. -/
theorem test_sub : let t := after (before 0x8125 [(1, 0x10), (2, 0x20)]); let u := after (before 0x8125 [(1, 0x20), (2, 0x20), (0xF, 1)])
    t.reg 1 = 0xF0 ∧ t.reg 0xF = 0 ∧ u.reg 1 = 0x00 ∧ u.reg 0xF = 0 := by decide
/-- A25, A27 (decision D5). -/
theorem test_sub_vf : let t := after (before 0x81F5 [(1, 0x10), (0xF, 0x05)])
    t.reg 0xF = 1 ∧ t.reg 1 = 0x0F ∧ (after (before 0x8F15 [(0xF, 0x10), (1, 0x05)])).reg 0xF = 0xFC := by decide
/-- A32: `V[Y]` is not used. -/
theorem test_shr : let t := after (before 0x8126 [(1, 0xFF)]); t.reg 1 = 0x7F ∧ t.reg 0xF = 1 ∧ t.reg 2 = 0x00 := by decide
/-- A33 (decision D5). -/
theorem test_shr_vf : (after (before 0x8F26 [(0xF, 0xFF)])).reg 0xF = 0 := by decide
/-- A36, A37. -/
theorem test_subn : let t := after (before 0x8127 [(1, 0x20), (2, 0x10)]); let u := after (before 0x8127 [(1, 0x20), (2, 0x20), (0xF, 1)])
    t.reg 1 = 0xF0 ∧ t.reg 0xF = 0 ∧ u.reg 1 = 0x00 ∧ u.reg 0xF = 0 := by decide
/-- A38, A40 (decision D5). -/
theorem test_subn_vf : let t := after (before 0x81F7 [(1, 0x05), (0xF, 0x10)])
    t.reg 0xF = 1 ∧ t.reg 1 = 0xFC ∧ (after (before 0x8F17 [(0xF, 0x05), (1, 0x10)])).reg 0xF = 0x0F := by decide
/-- A43, A44. -/
theorem test_shl : let t := after (before 0x812E [(1, 0x40), (0xF, 1)]); let u := after (before 0x812E [(1, 0xFF)])
    t.reg 1 = 0x80 ∧ t.reg 0xF = 0 ∧ u.reg 1 = 0xFE ∧ u.reg 0xF = 1 := by decide
/-- A47 (decision D5). -/
theorem test_shl_vf : (after (before 0x8F2E [(0xF, 0x80)])).reg 0xF = 2 := by decide
/-- A49. -/
theorem test_ldA : (after (before 0xAFFF [])).i = 0xFFF := by decide

/-- G8: both axes wrap at each pixel. -/
theorem test_drw_wraps : let s := before 0xD012 [(0, 255), (1, 255)]
    let t := after { s with i := 0x300, mem := (s.mem.put 0x300 0xC0).put 0x301 0xC0 }
    t.fb = lit 2047 ||| lit 1984 ||| lit 63 ||| lit 0 ∧ t.reg 0xF = 0 ∧ t.dirty = true := by decide +kernel
/-- G11 (decision D5): after the collision at column 0 the columns shift by one. -/
theorem test_drw_vf : let s := before 0xDF11 [(0xF, 9)]
    let t := after { s with i := 0x300, mem := s.mem.put 0x300 0xC0, fb := lit 0 }
    t.fb = lit 2 ∧ t.reg 0xF = 1 := by decide +kernel

/-- X7: the last three bytes of memory. -/
theorem test_bcd : let t := after { before 0xF033 [(0, 234)] with i := 0xFFD }
    t.memRead 0xFFD = some 2 ∧ t.memRead 0xFFE = some 3 ∧ t.memRead 0xFFF = some 4 ∧ t.fault = none := by decide
/-- X8. -/
theorem test_bcd_overflow : let t := after { before 0xF033 [(0, 234)] with i := 0xFFE }
    t.memRead 0xFFE = some 2 ∧ t.memRead 0xFFF = some 3 ∧ t.pc = 0x202 ∧
    t.fault = rec' .outOfBounds 0x200 0xF033 0x1000 .dataWrite := by decide
/-- X13. -/
theorem test_stM_overflow : let t := after { before 0xF155 [(0, 0xAA), (1, 0xBB)] with i := 0xFFF }
    t.memRead 0xFFF = some 0xAA ∧ t.fault = rec' .outOfBounds 0x200 0xF155 0x1000 .dataWrite := by decide
/-- X18: the instruction overwrites itself. -/
theorem test_stM_itself : let t := after { before 0xF155 [(0, 0x12)] with i := 0x200 }
    t.fetch = some 0x0000 ∧ t.memRead 0x200 = some 0x12 ∧ t.memRead 0x201 = some 0x00 ∧ t.pc = 0x202 ∧ t.i = 0x200 := by decide
/-- X14: the range ends at `X`. -/
theorem test_ldM : let s := before 0xF065 [(0, 1), (1, 2)]
    let t := after { s with i := 0x300, mem := (s.mem.put 0x300 0xAA).put 0x301 0xBB }
    t.reg 0 = 0xAA ∧ t.reg 1 = 2 ∧ t.i = 0x300 := by decide
/-- X16. -/
theorem test_ldM_overflow : let s := before 0xF165 [(0, 1), (1, 2)]
    let t := after { s with i := 0xFFF, mem := s.mem.put 0xFFF 0x99 }
    t.reg 0 = 0x99 ∧ t.reg 1 = 2 ∧ t.fault = rec' .outOfBounds 0x200 0xF165 0x1000 .dataRead := by decide

/-- T2: a fetch whose second byte is out of bounds. -/
theorem test_fetch_fault : let s : State := { State.reset with pc := 0xFFF }
    step s = .next { s with fault := rec' .outOfBounds 0xFFF 0 0xFFF .fetch } := rfl
/-- T5, Z1. -/
theorem test_illegal : step State.reset = .next { State.reset with
    pc := 0x202, fault := rec' .unimplementedOpcode 0x200 0 0 .fetch } := rfl
/-- T9. -/
theorem test_halted : step (after State.reset) = .next (after State.reset) := rfl
/-- T8: a fetch at an odd address. -/
theorem test_odd_fetch : (after { State.reset with pc := 0x203, mem := [(0x203, 0x6A), (0x204, 0x55)] }).reg 0xA = 0x55 := by
  decide
/-- T10, M18: a withheld step and `AckFrame`. -/
theorem test_host : offerStep false State.reset = .next State.reset ∧
    ({ State.reset with dirty := true } : State).ackFrame = State.reset := ⟨rfl, rfl⟩

/-! ### Other instances: the memory controller, the reset procedure and the step at small capacities. -/

/-- The instance with a capacity of its own and the other parameters canonical. -/
abbrev small (cap : Nat) (pos : 1 ≤ cap := by decide) (le : cap ≤ 65536 := by decide) : Config.Params :=
  { Config.Params.canonical with cap := cap, cap_pos := pos, cap_le := le }

/-- M13: the block write truncates. -/
theorem test_writeBlock : Memory.writeBlock (small 16) [] (List.replicate 20 7) 10 =
    some ([(10, 7), (11, 7), (12, 7), (13, 7), (14, 7), (15, 7)], 6) := by decide
/-- M11, M10: the offset is tested first, also for no bytes. -/
theorem test_writeBlock_empty : Memory.writeBlock .canonical [] [] 0x1000 = none ∧ Memory.writeBlock .canonical [] [] 0xFFF = some ([], 0) := by
  decide
/-- M1, M3: big-endian, and both bytes must exist. -/
theorem test_readWord : Memory.readWord .canonical [(0x200, 0x12), (0x201, 0x34)] 0x200 = some 0x1234 ∧
    Memory.readWord .canonical [] 0xFFF = none := by decide
/-- A write of what an unlisted address reads as removes the entry (the model's canonical form, log 3). -/
theorem test_canonical : Memory.put [(0x1FF, 1), (0x200, 5)] 0x200 0 = [(0x1FF, 1)] := by decide

/-- A font whose bytes are all 0xF0, to run the reset procedure on. -/
def plainFont : Vector Byte Config.fontLen := Vector.replicate _ 0xF0

/-- S14, Z2 at the machine's capacity: the report says how much was loaded, and the machine stands at the entry point. -/
theorem test_reset : let r := resetWith .canonical [0x60, 0x0A] plainFont
    r.counts = some (80, 2) ∧ r.state.pc = 0x200 ∧ r.state.fault = none := ⟨rfl, rfl, rfl⟩
/-- Z3. -/
theorem test_reset_no_room : let r := resetWith (small 0x200) [1, 2] plainFont
    r.counts = none ∧ r.state.fault = some ⟨.outOfBounds, 0, 0, 0x200, .dataWrite⟩ := by decide

/-- Z2: the program is cut at the capacity. -/
theorem test_reset_cut : let r := resetWith (small 0x204) [1, 2, 3, 4, 5, 6] plainFont
    r.counts = some (80, 4) ∧ r.state.pc = 0x200 ∧ r.state.memRead 0x204 = none ∧ r.state.fault = none := ⟨rfl, rfl, rfl, rfl⟩

/-- The state after one step at an instance. -/
def afterAt {p : Config.Params} (s : State p) : State p := match stepAt s with | .next t => t | _ => s

/-- A state at an instance with the word at 0x200 and `i` at 0x300. -/
def beforeAt (p : Config.Params) (w : Word) : State p := ((State.cleared p []).placeWord w).setI 0x300

/-- P6, the third step: the program has run off the end of a memory of 0x204 bytes. -/
theorem test_small_fetch : let s : State (small 0x204) := { State.cleared _ [] with pc := 0x204 }
    stepAt s = .next { s with fault := rec' .outOfBounds 0x204 0 0x204 .fetch } := rfl
/-- X17. -/
theorem test_small_store : let s := (beforeAt (small 0x300) 0xF055).setReg 0 1
    let t := afterAt s
    t.mem = s.mem ∧ t.pc = 0x202 ∧ t.fault = rec' .outOfBounds 0x200 0xF055 0x300 .dataWrite := by decide
/-- G6. -/
theorem test_small_draw : let t := afterAt ((beforeAt (small 0x300) 0xD003).setReg 0xF 1)
    t.reg 0xF = 0 ∧ t.fb = 0 ∧ t.dirty = false ∧ t.fault = none ∧ t.pc = 0x202 := ⟨rfl, rfl, rfl, rfl, rfl⟩
/-- R172 on a grid of 8 by 4: a row 0xC0 at column 7 of row 3 sets the pixels (7, 3) and (0, 3). -/
theorem test_small_grid : let p : Config.Params := { Config.Params.canonical with
      width := 8, height := 4, width_pos := by decide, height_pos := by decide }
    let s : State p := ((beforeAt p 0xD011).setReg 0 7).setReg 1 3
    let t := afterAt { s with mem := s.mem.put 0x300 0xC0 }
    t.fb = BitVec.twoPow _ 31 ||| BitVec.twoPow _ 24 ∧ t.reg 0xF = 0 := by decide +kernel

/-! ### Hypotheses that are met: for each statement with hypotheses, a state and operands that meet them all, one conjunct or
theorem for each clause, at the ends of its range. -/

theorem witness_EncodeOfDecodedIsTheWord : decode 0x8ABE = .ok (.shl 0xA 0xB) := by decide
theorem witness_DecodeAgreesWithOpcodeTable : decode 0x0FEE = .ok (.ret 0xF) ∧ decode 0x00FE = .error .illegalClass0 := by decide
/-- One word for each of the 24 cases of the table in its order, then one for each of the four illegal sets, the first and the
last value of a set where it is a range. -/
theorem witness_DecodeIsTheCaseTable :
    (∀ p ∈ [(0x00E0, 0x0, 0xE0), (0x0FEE, 0x0, 0xEE), (0xFF33, 0xF, 0x33), (0xF055, 0xF, 0x55), (0xF165, 0xF, 0x65)],
      p.1 / 4096 = p.2.1 ∧ p.1 % 256 = p.2.2) ∧
    (∀ p ∈ [(0x1ABC, 0x1), (0x2FFF, 0x2), (0x3A12, 0x3), (0x4B00, 0x4), (0x5AB7, 0x5), (0x6C99, 0x6), (0x7D01, 0x7),
        (0x9ABF, 0x9), (0xA123, 0xA), (0xD125, 0xD)], p.1 / 4096 = p.2) ∧
    (∀ p ∈ [(0x8AB0, 0x0), (0x8AB1, 0x1), (0x8AB2, 0x2), (0x8AB3, 0x3), (0x8AB4, 0x4), (0x8AB5, 0x5), (0x8AB6, 0x6),
        (0x8AB7, 0x7), (0x8ABE, 0xE)], p.1 / 4096 = 0x8 ∧ p.1 % 16 = p.2) ∧
    (∀ w ∈ [0x0000, 0x0FFF, 0x8AB8, 0x8ABF, 0xB000, 0xCFFF, 0xE09E, 0xF007, 0xFFFF],
      (∃ e, decode (BitVec.ofNat 16 w) = .error e) ∧
      ((w / 4096 = 0x0 ∧ w % 256 ≠ 0xE0 ∧ w % 256 ≠ 0xEE) ∨ (w / 4096 = 0x8 ∧ 8 ≤ w % 16 ∧ w % 16 ≠ 0xE) ∨
        (w / 4096 = 0xB ∨ w / 4096 = 0xC ∨ w / 4096 = 0xE) ∨
        (w / 4096 = 0xF ∧ w % 256 ≠ 0x33 ∧ w % 256 ≠ 0x55 ∧ w % 256 ≠ 0x65))) := by
  refine ⟨by decide, by decide, by decide, ?_⟩
  simp only [List.forall_mem_cons, List.not_mem_nil, false_imp_iff, implies_true, and_true]
  refine ⟨⟨⟨_, rfl⟩, by decide⟩, ⟨⟨_, rfl⟩, by decide⟩, ⟨⟨_, rfl⟩, by decide⟩, ⟨⟨_, rfl⟩, by decide⟩, ⟨⟨_, rfl⟩, by decide⟩,
    ⟨⟨_, rfl⟩, by decide⟩, ⟨⟨_, rfl⟩, by decide⟩, ⟨⟨_, rfl⟩, by decide⟩, ⟨_, rfl⟩, by decide⟩

/-- T1: the last word of memory, and the first word of a program. -/
def atTop : State := { State.reset with pc := 0xFFE, mem := [(0xFFE, 0x60), (0xFFF, 0x01)] }
theorem witness_StepRunsTheDecodedInstruction : atTop.fault = none ∧ atTop.memRead atTop.pc.toNat = some 0x60 ∧
    atTop.memRead (atTop.pc.toNat + 1) = some 0x01 ∧ decode (wordOfBytes 0x60 0x01) = .ok (.ldI 0 1) := by decide
theorem witness_FetchBeyondCapacityHalts : let s : State := { State.reset with pc := 0xFFF }
    s.fault = none ∧ Config.cap ≤ s.pc.toNat + 1 ∧ ¬ Config.cap ≤ atTop.pc.toNat + 1 := by decide
/-- The second clause at the least and the greatest capacity of R7. -/
theorem witness_FetchBeyondCapacityHalts_any :
    (let s : State (small 1) := { State.cleared _ [] with pc := 0 }; s.fault = none ∧ (small 1).cap ≤ s.pc.toNat + 1) ∧
    (let s : State (small 65536) := { State.cleared _ [] with pc := 0xFFFF }; s.fault = none ∧
      (small 65536).cap ≤ s.pc.toNat + 1) := by decide
theorem witness_IllegalWordHalts : let s : State := { State.reset with pc := 0xFFE }
    s.fault = none ∧ s.memRead s.pc.toNat = some 0 ∧ s.memRead (s.pc.toNat + 1) = some 0 ∧
    decode (wordOfBytes 0 0) = .error .illegalClass0 := by decide
theorem witness_HaltedMachineNeverMoves : (after State.reset).fault ≠ none := by decide
theorem witness_NoFaultNowMeansNoFaultBefore : RunsUnfaulted 1 atTop ∧ 1 ≤ 1 ∧ 0 ≤ 1 := ⟨⟨after atTop, rfl, rfl⟩, by decide⟩

/-- In the sixteenth nested call, every slot live. -/
def deep : State := { State.reset with sp := 16, stack := Vector.replicate 16 0x1000, i := 0xFFF, mem := [(0x201, 0xEE)] }

theorem deep_inv : deep.Inv where
  mem_wf     := by decide
  i_le       := by decide
  pc_le      := by decide
  stack_live := by
    intro k h _
    simp [deep, Config.cap]
  fault_fits := by
    intro r h
    exact absurd h nofun

theorem witness_StepKeepsTheInvariant : deep.Inv ∧ step deep = .next (after deep) := ⟨deep_inv, rfl⟩
theorem witness_HostMovesKeepTheInvariant : deep.Inv ∧ (∃ t, hostMove (.reset [0x12, 0x00] plainFont) deep = .next t) ∧
    (∃ t, hostMove (.offer true) deep = .next t) ∧ (∃ t, hostMove (.offer false) deep = .next t) ∧
    ∃ t, hostMove .ackFrame deep = .next t := ⟨deep_inv, ⟨_, rfl⟩, ⟨_, rfl⟩, ⟨_, rfl⟩, _, rfl⟩

theorem witness_ByteWriteThenRead : (Config.Params.canonical.cap ≤ 0x1000 ∧ 0xFFF < Config.Params.canonical.cap) ∧
    ((small 1).cap ≤ 1 ∧ 0 < (small 1).cap) := by decide
theorem witness_WordReadIsBigEndian : (Config.Params.canonical.cap ≤ 0xFFF + 1 ∧ 0xFFE + 1 < Config.Params.canonical.cap) ∧
    (small 1).cap ≤ 0 + 1 := by decide
/-- M11 for the first clause; M12 for the second, with a byte inside the block and one outside. -/
theorem witness_BlockWriteTruncates : Config.Params.canonical.cap ≤ 0x1000 ∧ 0xFFF < Config.Params.canonical.cap ∧ (0xFFF ≤ 0xFFF ∧ 0xFFF < 0xFFF + 3) ∧
    ¬ (0xFFF ≤ 0xFFE ∧ 0xFFE < 0xFFF + 3) := by decide
theorem witness_CanonicalMemoriesWithEqualReadsAreEqual : let m : Memory := [(0x000, 0x7E), (0xFFF, 0xAB)]
    m.wf .canonical ∧ ∀ a, a < Config.cap → Memory.read .canonical m a = Memory.read .canonical m a := ⟨by decide, fun _ _ => rfl⟩
theorem witness_StoredBytesAreFetchedNext : ∃ t u, atTop.memWrite atTop.pc.toNat 0x12 = some t ∧
    t.memWrite (t.pc.toNat + 1) 0x00 = some u := ⟨_, _, rfl, rfl⟩
/-- The pixel at column 63 of row 31 is the last one. -/
theorem witness_FrameDataIsRowMajor : let p := Config.Params.canonical
    2047 < p.width * p.height ∧ 2047 = (31 : Row p).val * p.width + (63 : Col p).val := by decide

/-! The words of the encoding clauses. -/

theorem witness_LoadImmediateSetsTheRegister : (0x6F07 : Word) &&& 0xF000 = 0x6000 := by decide
theorem witness_AddImmediateWrapsWithoutFlag : (0x7F02 : Word) &&& 0xF000 = 0x7000 := by decide
theorem witness_CopyRegisterCopies : (0x8AB0 : Word) &&& 0xF00F = 0x8000 := by decide
theorem witness_LogicalOperationsAreBitwise : (0x8AB1 : Word) &&& 0xF00F = 0x8001 ∧ (0x8AB2 : Word) &&& 0xF00F = 0x8002 ∧
    (0x8AB3 : Word) &&& 0xF00F = 0x8003 := by decide
theorem witness_AddRegistersThenCarry : (0x8FF4 : Word) &&& 0xF00F = 0x8004 := by decide
theorem witness_FlagAsOperandCornerCases : (0xE : Reg) ≠ vf ∧ (0 : Reg) ≠ vf := by decide
theorem witness_LoadAddressSetsI : (0xAFFF : Word) &&& 0xF000 = 0xA000 ∧
    (∃ t, exec (.ldI 0 1) State.reset = .next t) ∧ ∀ nnn, Instr.ldI 0 1 ≠ .ldA nnn := ⟨by decide, ⟨_, rfl⟩, nofun⟩
/-- F1 for the third clause. -/
theorem witness_JumpReplacesPc : (0x1FFF : Word) &&& 0xF000 = 0x1000 ∧ (let s := before 0x1200 []
    s.fault = none ∧ s.pc.toNat = (0x200 : Imm12).toNat ∧ s.fetch = some (encode (.jp 0x200))) := by decide
theorem witness_ImmediateSkips : (0x3F00 : Word) &&& 0xF000 = 0x3000 ∧ (0x4FFF : Word) &&& 0xF000 = 0x4000 := by decide

/-! The frames. -/

theorem witness_OnlyDestinationsAndFlagChange : (∃ t, exec (.sub 1 2) State.reset = .next t) ∧
    (Instr.sub 1 2).destReg 0xE = false ∧ ((Instr.sub 1 2).writesFlag = true → (0xE : Reg) ≠ vf) :=
  ⟨⟨_, rfl⟩, by decide, by decide⟩
/-- The bytes just below and just above the three of a BCD at 0x300. -/
theorem witness_OnlyStoredBytesChange : let s : State := { State.reset with i := 0x300 }
    (∃ t, exec (.bcd 0) s = .next t) ∧ ¬ (s.dataAddr 0 ≤ 0x2FF ∧ 0x2FF < s.dataAddr (Instr.bcd 0).storeLen) ∧
    ¬ (s.dataAddr 0 ≤ 0x303 ∧ 0x303 < s.dataAddr (Instr.bcd 0).storeLen) := ⟨⟨_, rfl⟩, by decide, by decide⟩
theorem witness_OnlyCallAndReturnChangeTheStack : (∃ t, exec (.ret 0) deep = .next t) ∧ (∀ nnn, Instr.ret 0 ≠ .call nnn) ∧
    (∃ t, exec (.jp 0) deep = .next t) ∧ (∀ nnn, Instr.jp 0 ≠ .call nnn) ∧ ∀ g, Instr.jp 0 ≠ .ret g :=
  ⟨⟨_, rfl⟩, nofun, ⟨_, rfl⟩, nofun, nofun⟩
theorem witness_OnlyDisplayInstructionsTouchTheFrame : (∃ t, exec (.ldM 0xF) deep = .next t) ∧
    (Instr.ldM 0xF).touchesFrame = false ∧ ({ deep with dirty := true } : State).dirty = true ∧
    ∃ t, exec (.cls 0) { deep with dirty := true } = .next t := ⟨⟨_, rfl⟩, rfl, rfl, _, rfl⟩
/-- The second clause: a call on a full stack. -/
theorem witness_OnlyControlFlowWritesPc : (∃ t, exec (.drw 0 1 2) deep = .next t) ∧ (Instr.drw 0 1 2).writesPc = false ∧
    ∃ t, exec (.call 0xFFF) deep = .next t ∧ deep.fault = none ∧ t.fault ≠ none := ⟨⟨_, rfl⟩, rfl, _, rfl, rfl, nofun⟩
theorem witness_OnlyFiveInstructionsRaise : ∃ t, exec (.bcd 0) deep = .next t ∧ deep.fault = none ∧ t.fault ≠ none :=
  ⟨_, rfl, rfl, by decide⟩
theorem witness_DirtyIsNeverRead : ∃ t, step (before 0x00E0 []) = .next t := ⟨_, rfl⟩

/-! Control flow. -/

theorem witness_CallPushesTheReturnAddress : let s : State := { deep with sp := 15 }
    s.sp.val < 16 ∧ deep.sp.val = 16 := by decide
theorem witness_ReturnPopsTheReturnAddress : 0 < deep.sp.val ∧ ({ deep with sp := 1 } : State).sp.val = 1 ∧
    State.reset.sp.val = 0 := by decide
theorem witness_ReturnMatchesCall : let s : State := { deep with sp := 15 }
    ∃ (h : s.sp.val < 16) (t u : State), exec (.call 0x300) s = .next t ∧ u.sp = t.sp ∧ u.stack[s.sp.val] = t.stack[s.sp.val] :=
  ⟨by decide, _, _, rfl, rfl, rfl⟩

/-! Memory transfer: X7, X11, X12, X16 and the first address beyond memory. -/

/-- `i` at an address. -/
def atAddr (i : Word) : State := { State.reset with i := i }

theorem witness_BcdStoresTheDigits : (atAddr 0xFFD).dataAddr 2 < Config.cap := by decide
theorem witness_StoreRegistersStoresTheRange : (atAddr 0xFF0).dataAddr (0xF : Reg).toNat < Config.cap ∧
    (0xF : Reg).toNat ≤ (0xF : Reg).toNat ∧
    ¬ ((atAddr 0xFF0).dataAddr 0 ≤ 0xFEF ∧ 0xFEF ≤ (atAddr 0xFF0).dataAddr (0xF : Reg).toNat) := by decide
theorem witness_LoadRegistersLoadsTheRange : (atAddr 0xFFF).dataAddr (0 : Reg).toNat < Config.cap ∧
    (0 : Reg).toNat ≤ (0 : Reg).toNat ∧ (0 : Reg).toNat < (1 : Reg).toNat := by decide
theorem witness_StoreThenLoadRestoresRegisters : let s := atAddr 0xFF0
    ∃ t u : State, exec (.stM 0xF) s = .next t ∧ s.dataAddr (0xF : Reg).toNat < Config.cap ∧ u.i = t.i ∧
      ∀ k, k ≤ (0xF : Reg).toNat → u.memRead (s.dataAddr k) = t.memRead (s.dataAddr k) :=
  ⟨_, _, rfl, by decide, rfl, fun _ _ => rfl⟩
/-- Each clause with the last address at which it still stores something, and with one at which it stores nothing. -/
theorem witness_StorePastCapacityKeepsLowerBytes :
    (Config.cap ≤ (atAddr 0xFFE).dataAddr 2 ∧ (atAddr 0xFFE).dataAddr 1 < Config.cap) ∧ Config.cap ≤ (atAddr 0x1000).dataAddr 2 ∧
    (Config.cap ≤ (atAddr 0xFF1).dataAddr (0xF : Reg).toNat ∧ (0xE : Reg).toNat ≤ (0xF : Reg).toNat ∧
      (atAddr 0xFF1).dataAddr (0xE : Reg).toNat < Config.cap ∧ 0xFF0 < (atAddr 0xFF1).dataAddr 0) ∧
    Config.cap ≤ (atAddr 0xFFFF).dataAddr (0 : Reg).toNat := by decide
/-- The clauses for any instance: X17, and a BCD whose first byte alone fits. -/
theorem witness_StorePastCapacityKeepsLowerBytes_any :
    (let s := beforeAt (small 0x300) 0xF055; (small 0x300).cap ≤ s.dataAddr (0 : Reg).toNat) ∧
    (let s := beforeAt (small 0x301) 0xF033; (small 0x301).cap ≤ s.dataAddr 2 ∧ s.dataAddr 0 < (small 0x301).cap) := by decide
theorem witness_LoadPastCapacityKeepsLoadedRegisters_any : let s := beforeAt (small 0x301) 0xF165
    (small 0x301).cap ≤ s.dataAddr (1 : Reg).toNat ∧ s.dataAddr (0 : Reg).toNat < (small 0x301).cap ∧
      (1 : Reg).toNat < (2 : Reg).toNat := by decide
theorem witness_LoadPastCapacityKeepsLoadedRegisters : Config.cap ≤ (atAddr 0xFFF).dataAddr (1 : Reg).toNat ∧
    (atAddr 0xFFF).dataAddr (0 : Reg).toNat < Config.cap ∧ (1 : Reg).toNat < (2 : Reg).toNat ∧
    Config.cap ≤ (atAddr 0xFFFF).dataAddr (0 : Reg).toNat := by decide

/-! The sprite draw: one row, one pixel, in the last byte of memory (G1, G2). -/

/-- The sprite 0x80 at 0xFFF, `V[0]` = 5, `V[1]` = 3, some pixels set. -/
def sprite (fb : Frame) : State :=
  { (State.reset.setReg 0 5).setReg 1 3 with i := 0xFFF, mem := [(0xFFF, 0x80)], fb := fb }

theorem sprite_rows (fb : Frame) : (sprite fb).RowsInBounds 1 := by
  intro r h
  have : r = 0 := by simpa [rowCount] using h
  subst this
  show (0xFFF : Word).toNat + 0 < Config.cap
  decide

theorem sprite_bit (fb : Frame) : (sprite fb).SpriteBit 1 0 0 := ⟨by decide, by decide, 0x80, by
  show Memory.read .canonical [(0xFFF, 0x80)] 0xFFF = some 0x80
  decide, by decide⟩

/-- The sprite's one pixel is the pixel (5, 3), and no other is a pixel of it. -/
theorem sprite_in (fb : Frame) (px : Col) (py : Row) : (sprite fb).InSpriteAt 5 3 1 px py ↔ px = 5 ∧ py = 3 := by
  constructor
  · rintro ⟨r, c, ⟨hr, hc, b, hb, hp⟩, rfl, rfl⟩
    have : r = 0 := by simpa [rowCount] using hr
    subst this
    have e : b = 0x80 := by
      have : (sprite fb).memRead ((sprite fb).dataAddr 0) = some 0x80 := by
        show Memory.read .canonical [(0xFFF, 0x80)] 0xFFF = some 0x80
        decide
      exact Option.some.inj (hb.symm.trans this)
    subst e
    have hc0 : c = 0 := by
      revert hp
      revert c
      decide
    subst hc0
    decide
  · rintro ⟨rfl, rfl⟩
    exact ⟨0, 0, sprite_bit fb, by decide, by decide⟩

/-- Clear screen for the clause without a collision, pixel 197 set for the one with a collision; (5, 3) lies in the sprite and
(6, 3) does not. -/
theorem witness_DrawInvertsTheSprite : (0 : Reg) ≠ vf ∧ (1 : Reg) ≠ vf ∧ (∀ fb, (sprite fb).RowsInBounds 1) ∧
    (∀ fb, (sprite fb).InSpriteAt ((sprite fb).reg 0).toNat ((sprite fb).reg 1).toNat 1 5 3) ∧
    (∀ fb, ¬ (sprite fb).InSpriteAt ((sprite fb).reg 0).toNat ((sprite fb).reg 1).toNat 1 6 3) ∧
    (sprite (lit 197)).pixelGet 5 3 = 1 ∧
    ∀ px py, (sprite 0).InSpriteAt ((sprite 0).reg 0).toNat ((sprite 0).reg 1).toNat 1 px py → (sprite 0).pixelGet px py = 0 := by
  refine ⟨by decide, by decide, sprite_rows, ?_, ?_, by decide +kernel, ?_⟩
  · exact fun fb => (sprite_in fb 5 3).mpr (by decide)
  · exact fun fb h => absurd ((sprite_in fb 6 3).mp h) (by decide)
  · intro px py h
    obtain ⟨rfl, rfl⟩ := (sprite_in 0 px py).mp h
    decide +kernel

theorem witness_DrawFromFlagRegisterStartsAtZero : (sprite 0).RowsInBounds 1 ∧
    ∀ px py, (sprite 0).InSpriteAt (if vf = vf then 0 else ((sprite 0).reg vf).toNat)
      (if vf = vf then 0 else ((sprite 0).reg vf).toNat) 1 px py → (sprite 0).pixelGet px py = 0 :=
  ⟨sprite_rows 0, fun px py _ => by
    show BitVec.ofBool ((0 : Frame).getLsbD _) = 0
    rw [show (0 : Frame).getLsbD (pixelIndex px py) = false from BitVec.getLsbD_zero]
    rfl⟩

/-- One row in bounds; and G6, none. -/
theorem witness_DrawStopsAtTheFirstUnreadableRow : Config.cap < (sprite 0).dataAddr (2 : Nibble).toNat ∧
    (small 0x300).cap < (beforeAt (small 0x300) 0xD003).dataAddr (3 : Nibble).toNat := by decide

theorem witness_DrawTwiceRestoresTheFrame : (0 : Reg) ≠ vf ∧ (1 : Reg) ≠ vf ∧ (∀ fb, (sprite fb).RowsInBounds 1) ∧
    (∀ fb, ∃ t u, exec (.drw 0 1 1) (sprite fb) = .next t ∧ exec (.drw 0 1 1) t = .next u) ∧
    ((sprite 0).InSpriteAt ((sprite 0).reg 0).toNat ((sprite 0).reg 1).toNat 1 5 3 ∧ (sprite 0).pixelGet 5 3 = 0) ∧
    ∀ px py, (sprite (lit 197)).InSpriteAt ((sprite (lit 197)).reg 0).toNat ((sprite (lit 197)).reg 1).toNat 1 px py →
      (sprite (lit 197)).pixelGet px py = 1 := by
  refine ⟨by decide, by decide, sprite_rows, fun fb => ⟨_, _, rfl, rfl⟩, ⟨(sprite_in 0 5 3).mpr (by decide), by decide +kernel⟩, ?_⟩
  intro px py h
  obtain ⟨rfl, rfl⟩ := (sprite_in _ px py).mp h
  decide +kernel

/-! Reset. -/

theorem witness_ResetStateIsTheTable : 15 < 16 ∧ 79 < 80 ∧ (0xFFF < Config.cap ∧ ¬ (0x50 ≤ 0xFFF ∧ 0xFFF < 0xA0)) := by decide
theorem witness_ResetLoadsFontAndProgram : let program : List Byte := [0x60, 0x0A]
    79 < 80 ∧ (1 < program.length ∧ 1 < 3584) ∧
    (0x202 < Config.cap ∧ ¬ (0x50 ≤ 0x202 ∧ 0x202 < 0xA0) ∧ ¬ (0x200 ≤ 0x202 ∧ 0x202 < 0x200 + program.length)) := by decide
/-- The second clause: Z2. -/
theorem witness_ResetLoadsFontAndProgram_any : let p := small 0x204
    p.fontAddr < p.cap ∧ p.loadAddr < p.cap ∧ 0x203 < p.cap ∧ (p.loadAddr ≤ 0x203 ∧ 0x203 < p.loadAddr + 6) := by decide
/-- Z4 for the first clause; Z3 and Z5 for the second. -/
theorem witness_LoadAddressBeyondCapacityHalts :
    (let p := small 0x50; p.cap ≤ p.fontAddr ∧ 0x4F < p.cap) ∧
    (let p := small 0x200; p.fontAddr < p.cap ∧ p.cap ≤ p.loadAddr ∧ p.fontAddr + 79 < p.cap) ∧
    (let p := small 0x51; p.fontAddr < p.cap ∧ p.cap ≤ p.loadAddr ∧ p.fontAddr + 0 < p.cap) := by decide

/-! Other instances. -/

/-- The third clause. -/
theorem witness_CanonicalInstanceIsStepAndAnyStepKeepsMemoryCanonical : let s := beforeAt (small 0x300) 0xF055
    s.mem.wf (small 0x300) ∧ ∃ t, stepAt s = .next t := ⟨by decide, _, rfl⟩

end Sys2Proof.Tests
end

section
/-! PROOFS. What an instruction at any instance does to memory, and the canonical instance. -/

namespace Sys2Proof.Machine

variable {p : Config.Params}

/-! ### Memory under the operations an instruction is made of. -/

@[simp] theorem State.skipIf_mem (s : State p) (c : Bool) : (s.skipIf c).mem = s.mem := by
  cases c <;> rfl

theorem State.memWrite_wf {s t : State p} {a : Nat} {b : Byte} (hs : s.mem.wf p) (h : s.memWrite a b = some t) :
    t.mem.wf p := by
  obtain ⟨m, hm, rfl⟩ := Option.map_eq_some_iff.mp h
  exact Memory.wf_write hs hm

theorem storeBytes_wf (op : Word) (bytes : List Byte) (k : Nat) (s : State p) (hs : s.mem.wf p) :
    (storeBytes op k bytes s).mem.wf p := by
  induction bytes generalizing k s with
  | nil => exact hs
  | cons b bs ih =>
    rw [storeBytes]
    split
    · exact hs
    · next t ht => exact ih _ _ (State.memWrite_wf hs ht)

@[simp] theorem loadRegs_mem (op : Word) (count k : Nat) (s : State p) : (loadRegs op count k s).mem = s.mem := by
  induction count generalizing k s with
  | zero => rfl
  | succ n ih =>
    rw [loadRegs]
    split
    · rfl
    · exact ih _ _

theorem SameButDrawn.mem_eq {s t : State p} (h : SameButDrawn s t) : t.mem = s.mem := by rw [h.2]

/-! ### The call stack's two instructions, each by its two outcomes (R120, R122). -/

theorem execRet_of_pos (g : Nibble) {s : State p} (h : 0 < s.sp.val) : execRet g s =
    .next { s with sp := ⟨s.sp.val - 1, by omega⟩, pc := s.stack[s.sp.val - 1]'(by omega) } := by
  rw [execRet, State.pop_of_pos h]

theorem execRet_of_empty (g : Nibble) {s : State p} (h : s.sp.val = 0) :
    execRet g s = .next (s.raisePlain .stackUnderflow (encode (.ret g))) := by
  rw [execRet, State.pop_of_empty h]

theorem execCall_of_lt (nnn : Imm12) {s : State p} (h : s.sp.val < Config.stackDepth) : execCall nnn s =
    .next (State.setPc { s with stack := s.stack.set s.sp.val s.pc, sp := ⟨s.sp.val + 1, by omega⟩ } (immNNN nnn)) := by
  rw [execCall, State.push_of_lt h]

theorem execCall_of_full (nnn : Imm12) {s : State p} (h : ¬ s.sp.val < Config.stackDepth) :
    execCall nnn s = .next (s.raisePlain .stackOverflow (encode (.call nnn))) := by
  rw [execCall, State.push_of_full h]

/-! ### Memory under an instruction and a step. -/

/-- Only FX33 and FX55 write memory (R64), at every instance. -/
theorem execAt_mem_of_storeLen_eq_zero {i : Instr} {s t : State p} (hi : i.storeLen = 0) (h : execAt i s = .next t) :
    t.mem = s.mem := by
  cases i with
  | cls | jp | ldI | addI | ldR | orR | andR | xorR | addR | sub | shr | subn | shl | ldA => cases h; rfl
  | seI | sneI | seR | sneR => cases h; exact State.skipIf_mem _ _
  | ret g =>
    rcases Nat.eq_zero_or_pos s.sp.val with h0 | h0
    · cases (execRet_of_empty g h0).symm.trans h; rfl
    · cases (execRet_of_pos g h0).symm.trans h; rfl
  | call nnn =>
    by_cases h16 : s.sp.val < Config.stackDepth
    · cases (execCall_of_lt nnn h16).symm.trans h; rfl
    · cases (execCall_of_full nnn h16).symm.trans h; rfl
  | drw x y n => cases h; exact (sameButDrawn_drawRows x y _ _ (s.setReg vf 0)).mem_eq
  | ldM => cases h; exact loadRegs_mem _ _ _ _
  | bcd => cases hi
  | stM => cases hi

/-- `Execute(ins)` keeps the canonical form: a store goes through `MemWrite`, and everything else leaves memory. -/
theorem execAt_wf {i : Instr} {s t : State p} (hs : s.mem.wf p) (h : execAt i s = .next t) : t.mem.wf p := by
  cases i with
  | bcd | stM => cases h; exact storeBytes_wf _ _ _ _ hs
  | _ => rw [execAt_mem_of_storeLen_eq_zero rfl h]; exact hs

theorem stepAt_wf {s t : State p} (hs : s.mem.wf p) (h : stepAt s = .next t) : t.mem.wf p := by
  rcases stepBy_cases execAt s with ⟨_, hstep⟩ | ⟨_, _, hstep⟩ | ⟨w, e, _, _, _, hstep⟩ | ⟨w, i, _, _, _, hstep⟩
  · cases hstep.symm.trans h; exact hs
  · cases hstep.symm.trans h; exact hs
  · cases hstep.symm.trans h; exact hs
  · exact execAt_wf (s := s.advance) hs (hstep.symm.trans h)

/-! ### The canonical instance. -/

/-- The two dispatches send every instruction to the same meaning. -/
theorem execAt_eq_exec (i : Instr) (s : State) : execAt i s = exec i s := by
  cases i <;> rfl

theorem stepAt_eq_step (s : State) : stepAt s = step s := by
  rw [stepAt, step, funext₂ execAt_eq_exec]

/-- Settles O60: the two dispatches agree arm by arm, and memory is written by `MemWrite` alone. -/
theorem canonicalInstanceIsStepAndAnyStepKeepsMemoryCanonical :
    Obligations.CanonicalInstanceIsStepAndAnyStepKeepsMemoryCanonical :=
  ⟨execAt_eq_exec, stepAt_eq_step, fun _ _ _ => stepAt_wf⟩

end Sys2Proof.Machine
end

section
/-! PROOFS. What an instruction leaves of the general registers, of `pc` and of `i` (10_state.md R22, R24, R27), and `LD_A`. -/

namespace Sys2Proof.Machine

variable {p : Config.Params}

/-! ### A skip moves `pc` alone (R127). -/

@[simp] theorem State.reg_skipIf (s : State p) (c : Bool) (k : Reg) : (s.skipIf c).reg k = s.reg k := by
  cases c <;> rfl

@[simp] theorem State.skipIf_i (s : State p) (c : Bool) : (s.skipIf c).i = s.i := by
  cases c <;> rfl

@[simp] theorem State.skipIf_fault (s : State p) (c : Bool) : (s.skipIf c).fault = s.fault := by
  cases c <;> rfl

/-! ### A return and a call, each either done or a fault that changes nothing else (R120, R122). -/

theorem execRet_cases {g : Nibble} {s t : State p} (h : execRet g s = .next t) :
    (∃ sp pc, t = { s with sp := sp, pc := pc }) ∨ t = s.raisePlain .stackUnderflow (encode (.ret g)) := by
  rcases Nat.eq_zero_or_pos s.sp.val with h0 | h0
  · cases (execRet_of_empty g h0).symm.trans h; exact .inr rfl
  · cases (execRet_of_pos g h0).symm.trans h; exact .inl ⟨_, _, rfl⟩

theorem execCall_cases {nnn : Imm12} {s t : State p} (h : execCall nnn s = .next t) :
    (∃ stack sp pc, t = { s with stack := stack, sp := sp, pc := pc }) ∨
      t = s.raisePlain .stackOverflow (encode (.call nnn)) := by
  by_cases h16 : s.sp.val < Config.stackDepth
  · cases (execCall_of_lt nnn h16).symm.trans h; exact .inl ⟨_, _, _, rfl⟩
  · cases (execCall_of_full nnn h16).symm.trans h; exact .inr rfl

/-! ### The byte loops: a store writes memory and the fault record, a load the registers of its range and the fault record. -/

theorem storeBytes_frame (op : Word) (k : Nat) (bytes : List Byte) (s : State p) :
    ∃ m f, storeBytes op k bytes s = { s with mem := m, fault := f } := by
  cases bytes with
  | nil => exact ⟨_, _, rfl⟩
  | cons b bs =>
    by_cases hfit : s.dataAddr k + (b :: bs).length ≤ p.cap
    · exact ⟨_, _, storeBytes_of_fits op _ k s hfit⟩
    · exact ⟨_, _, storeBytes_of_overflow op _ k s (List.cons_ne_nil b bs) (Nat.lt_of_not_le hfit)⟩

/-- Of the registers to load, those before the first failing read are loaded (R237). -/
theorem loadRegs_frame (op : Word) (count k : Nat) (s : State p) :
    ∃ c f, c ≤ count ∧ loadRegs op count k s = { s with v := loadedV s c k, fault := f } := by
  cases count with
  | zero => exact ⟨0, _, Nat.le_refl 0, rfl⟩
  | succ n =>
    by_cases hfit : s.dataAddr k + (n + 1) ≤ p.cap
    · exact ⟨n + 1, _, Nat.le_refl _, loadRegs_of_fits op _ k s hfit⟩
    · exact ⟨p.cap - s.dataAddr k, _, by omega,
        loadRegs_of_overflow op _ k s n.succ_pos (Nat.lt_of_not_le hfit)⟩

@[simp] theorem reg_storeBytes (op : Word) (n : Nat) (bytes : List Byte) (s : State p) (k : Reg) :
    (storeBytes op n bytes s).reg k = s.reg k := by
  obtain ⟨m, f, h⟩ := storeBytes_frame op n bytes s
  rw [h]; rfl

@[simp] theorem storeBytes_pc (op : Word) (k : Nat) (bytes : List Byte) (s : State p) :
    (storeBytes op k bytes s).pc = s.pc := by
  obtain ⟨m, f, h⟩ := storeBytes_frame op k bytes s
  rw [h]

@[simp] theorem storeBytes_i (op : Word) (k : Nat) (bytes : List Byte) (s : State p) :
    (storeBytes op k bytes s).i = s.i := by
  obtain ⟨m, f, h⟩ := storeBytes_frame op k bytes s
  rw [h]

@[simp] theorem loadRegs_pc (op : Word) (count k : Nat) (s : State p) : (loadRegs op count k s).pc = s.pc := by
  obtain ⟨c, f, _, h⟩ := loadRegs_frame op count k s
  rw [h]

@[simp] theorem loadRegs_i (op : Word) (count k : Nat) (s : State p) : (loadRegs op count k s).i = s.i := by
  obtain ⟨c, f, _, h⟩ := loadRegs_frame op count k s
  rw [h]

/-- A register above the loaded range keeps its value. -/
theorem reg_loadRegs_of_le (op : Word) (count k : Nat) (s : State p) {j : Reg} (hj : k + count ≤ j.toNat) :
    (loadRegs op count k s).reg j = s.reg j := by
  obtain ⟨c, f, hc, h⟩ := loadRegs_frame op count k s
  have hlt := reg_lt j
  rw [h]
  exact (reg_loadedV c k s j (by omega)).trans (if_neg (by omega))

/-! ### A draw changes `VF`, the frame and `dirty` (R172). -/

theorem SameButDrawn.pc_eq {s t : State p} (h : SameButDrawn s t) : t.pc = s.pc := by rw [h.2]

theorem SameButDrawn.i_eq {s t : State p} (h : SameButDrawn s t) : t.i = s.i := by rw [h.2]

theorem sameButDrawn_execDrw {x y : Reg} {n : Nibble} {s t : State p} (h : execDrw x y n s = .next t) :
    SameButDrawn s t := by
  cases h
  exact (sameButDrawn_setVf s 0).trans (sameButDrawn_drawRows x y _ _ _)

/-! ### Two register writes one after the other, as an instruction that writes a flag makes them. -/

theorem State.reg_setReg_setReg_other (s : State p) {k x y : Reg} (b c : Byte) (hx : k ≠ x) (hy : k ≠ y) :
    ((s.setReg x b).setReg y c).reg k = s.reg k :=
  (State.reg_setReg_other _ c hy).trans (State.reg_setReg_other s b hx)

/-! ### The general registers under an instruction. -/

theorem exec_reg_of_not_dest {i : Instr} {s t : State} (h : exec i s = .next t) {k : Reg} (hk : i.destReg k = false)
    (hflag : i.writesFlag = true → k ≠ vf) : t.reg k = s.reg k := by
  cases i with
  | cls | jp | ldA => cases h; rfl
  | seI | sneI | seR | sneR => cases h; exact State.reg_skipIf _ _ k
  | ret => obtain ⟨_, _, rfl⟩ | rfl := execRet_cases h <;> rfl
  | call => obtain ⟨_, _, _, rfl⟩ | rfl := execCall_cases h <;> rfl
  | ldI | addI | ldR | orR | andR | xorR => cases h; exact State.reg_setReg_other _ _ (ne_of_beq_false hk)
  | addR => cases h; exact State.reg_setReg_setReg_other s _ _ (ne_of_beq_false hk) (hflag rfl)
  | sub | shr | subn | shl => cases h; exact State.reg_setReg_setReg_other s _ _ (hflag rfl) (ne_of_beq_false hk)
  | drw => exact (sameButDrawn_execDrw h).1 k (hflag rfl)
  | bcd | stM => cases h; exact reg_storeBytes _ _ _ s k
  | ldM x =>
    cases h
    have hx : x.toNat < k.toNat := Nat.lt_of_not_le (of_decide_eq_false hk)
    exact reg_loadRegs_of_le _ _ _ s (by rw [rangeLen]; omega)

/-- Settles O32: each instruction's register writes, one row of R22 at a time. -/
theorem onlyDestinationsAndFlagChange : Obligations.OnlyDestinationsAndFlagChange :=
  fun _ _ _ h _ => exec_reg_of_not_dest h

/-! ### The program counter under an instruction. -/

theorem exec_pc_of_not_writesPc {i : Instr} {s t : State} (hi : i.writesPc = false) (h : exec i s = .next t) :
    t.pc = s.pc := by
  cases i with
  | ret | jp | call | seI | sneI | seR | sneR => cases hi
  | cls | ldA | ldI | addI | ldR | orR | andR | xorR | addR | sub | shr | subn | shl => cases h; rfl
  | drw => exact (sameButDrawn_execDrw h).pc_eq
  | bcd | stM => cases h; exact storeBytes_pc _ _ _ s
  | ldM => cases h; exact loadRegs_pc _ _ _ s

/-- Of the instructions that write `pc`, only the return and the call raise, and what raises writes nothing else (D22). -/
theorem exec_pc_of_raises {i : Instr} {s t : State} (h : exec i s = .next t) (hs : s.fault = none) (ht : t.fault ≠ none) :
    t.pc = s.pc := by
  cases i with
  | jp => cases h; exact absurd hs ht
  | seI | sneI | seR | sneR => cases h; exact absurd ((State.skipIf_fault s _).trans hs) ht
  | ret =>
    obtain ⟨_, _, rfl⟩ | rfl := execRet_cases h
    · exact absurd hs ht
    · rfl
  | call =>
    obtain ⟨_, _, _, rfl⟩ | rfl := execCall_cases h
    · exact absurd hs ht
    · rfl
  | _ => exact exec_pc_of_not_writesPc rfl h

/-- Settles O36: the instructions outside R24's list leave `pc`, and one of the list that raises has not written it. -/
theorem onlyControlFlowWritesPc : Obligations.OnlyControlFlowWritesPc :=
  fun _ _ _ h => ⟨fun hi => exec_pc_of_not_writesPc hi h, exec_pc_of_raises h⟩

/-! ### The address register under an instruction, and `LD_A` (R27, R151). -/

theorem exec_i_of_ne_ldA {i : Instr} {s t : State} (hi : ∀ nnn, i ≠ .ldA nnn) (h : exec i s = .next t) : t.i = s.i := by
  cases i with
  | ldA nnn => exact absurd rfl (hi nnn)
  | cls | jp | ldI | addI | ldR | orR | andR | xorR | addR | sub | shr | subn | shl => cases h; rfl
  | seI | sneI | seR | sneR => cases h; exact State.skipIf_i s _
  | ret => obtain ⟨_, _, rfl⟩ | rfl := execRet_cases h <;> rfl
  | call => obtain ⟨_, _, _, rfl⟩ | rfl := execCall_cases h <;> rfl
  | drw => exact (sameButDrawn_execDrw h).i_eq
  | bcd | stM => cases h; exact storeBytes_i _ _ _ s
  | ldM => cases h; exact loadRegs_i _ _ _ s

/-- The mask of a row keyed on the class alone determines the class field (R81, R86). -/
theorem fieldClass_of_and_F000 {w pattern : Word} (h : w &&& 0xF000 = pattern) : fieldClass w = fieldClass pattern := by
  rw [← h, fieldClass, fieldClass, BitVec.extractLsb'_and]
  exact BitVec.and_allOnes.symm

theorem decode_of_and_F000_eq_A000 {w : Word} (h : w &&& 0xF000 = 0xA000) : decode w = .ok (.ldA (fieldNNN w)) := by
  have hclass : (fieldClass w).toNat = 0xA := congrArg BitVec.toNat (fieldClass_of_and_F000 h)
  simp only [decode, hclass]

/-- The immediate keeps its value when it is zero-extended (R83). -/
@[simp] theorem immNNN_toNat (nnn : Imm12) : (immNNN nnn).toNat = nnn.toNat :=
  BitVec.toNat_setWidth_of_le (by decide)

/-- Settles O31: the class field picks the row, the zero-extended immediate is `i`, and the other instructions leave `i`. -/
theorem loadAddressSetsI : Obligations.LoadAddressSetsI :=
  ⟨fun _ => decode_of_and_F000_eq_A000, fun nnn s => ⟨s.setI (immNNN nnn), rfl, immNNN_toNat nnn, rfl⟩,
    fun _ _ _ h hi => exec_i_of_ne_ldA hi h⟩

end Sys2Proof.Machine
end

section
/-! PROOFS. The memory contract of 20_memory.md (R50 to R55), and what an instruction leaves of memory (R64). -/

namespace Sys2Proof.Machine

variable {p : Config.Params}

/-! ### One byte written (R50, R51). -/

/-- After a write below the capacity that address alone reads anew, and the addresses beyond still fail. -/
theorem Memory.read_put (m : Memory) {a : Nat} (ha : a < p.cap) (v : Byte) (b : Nat) :
    Memory.read p (m.put a v) b = if b = a then some v else Memory.read p m b := by
  rcases Nat.lt_or_ge b p.cap with hb | hb
  · rw [Memory.read_of_lt hb, Memory.read_of_lt hb, Memory.lookup_put, apply_ite some]
  · rw [Memory.read_of_le hb, Memory.read_of_le hb, if_neg (by omega)]

/-- Settles O16: the write changes one entry, so one read. -/
theorem byteWriteThenRead : Obligations.ByteWriteThenRead :=
  fun _ m _ v => ⟨fun h => ⟨Memory.write_of_le h, Memory.read_of_le h⟩,
    fun h => ⟨⟨_, Memory.read_of_lt h⟩, _, Memory.write_of_lt h, Memory.read_put m h v⟩⟩

/-! ### The word read (R52). -/

theorem Memory.readWord_of_lt {m : Memory} {a : Nat} (h : a + 1 < p.cap) :
    Memory.readWord p m a = some (wordOfBytes (m.lookup a) (m.lookup (a + 1))) :=
  if_neg (Nat.not_le_of_lt h)

theorem Memory.readWord_of_le {m : Memory} {a : Nat} (h : p.cap ≤ a + 1) : Memory.readWord p m a = none :=
  if_pos h

@[simp] theorem wordOfBytes_toNat (high low : Byte) : (wordOfBytes high low).toNat = high.toNat * 256 + low.toNat := by
  have hhigh := high.isLt
  have hlow := low.isLt
  rw [wordOfBytes, BitVec.toNat_ofNat, Nat.mod_eq_of_lt (by omega)]

/-- Settles O17: the word is made of the two bytes read, and two bytes fit in its 16 bits. -/
theorem wordReadIsBigEndian : Obligations.WordReadIsBigEndian :=
  fun _ _ _ => ⟨fun h => ⟨Memory.readWord_of_le h, Memory.read_of_le h⟩,
    fun h => ⟨_, _, _, Memory.read_of_lt (by omega), Memory.read_of_lt h, Memory.readWord_of_lt h, wordOfBytes_toNat _ _⟩⟩

/-! ### The block write (R53). -/

theorem Memory.writeBlock_of_le {m : Memory} {bytes : List Byte} {offset : Nat} (h : p.cap ≤ offset) :
    Memory.writeBlock p m bytes offset = none :=
  if_pos h

theorem Memory.writeBlock_of_lt {m : Memory} {bytes : List Byte} {offset : Nat} (h : offset < p.cap) :
    Memory.writeBlock p m bytes offset =
      some (m.putBytes offset (bytes.take (min bytes.length (p.cap - offset))), min bytes.length (p.cap - offset)) :=
  if_neg (Nat.not_le_of_lt h)

/-- Below the capacity the truncation is invisible: the bytes cut off are those that would lie at or beyond it. -/
theorem Memory.read_putBytes_take (m : Memory) (bytes : List Byte) (offset : Nat) {a : Nat} (ha : a < p.cap) :
    Memory.read p (m.putBytes offset (bytes.take (min bytes.length (p.cap - offset)))) a =
      if offset ≤ a ∧ a < offset + bytes.length then bytes[a - offset]? else Memory.read p m a := by
  rw [Memory.read_of_lt ha, Memory.read_of_lt ha, Memory.lookup_putBytes]
  have hlen : (bytes.take (min bytes.length (p.cap - offset))).length = min bytes.length (p.cap - offset) := by
    rw [List.length_take]; omega
  by_cases hin : offset ≤ a ∧ a < offset + bytes.length
  · rw [dif_pos (by omega), if_pos hin, List.getElem_take, List.getElem?_eq_getElem]
  · rw [dif_neg (by omega), if_neg hin]

/-- Settles O18: the block write puts what fits, and below the capacity that reads as the whole list would. -/
theorem blockWriteTruncates : Obligations.BlockWriteTruncates :=
  fun _ m bytes offset => ⟨Memory.writeBlock_of_le,
    fun h => ⟨_, Memory.writeBlock_of_lt h, fun _ ha => Memory.read_putBytes_take m bytes offset ha⟩⟩

/-! ### One byte written in a state, and the fetch after it (R62, R71). -/

theorem State.memWrite_eq_some_iff {s t : State p} {a : Nat} {b : Byte} :
    s.memWrite a b = some t ↔ a < p.cap ∧ { s with mem := s.mem.put a b } = t := by
  rcases Nat.lt_or_ge a p.cap with h | h
  · simp [State.memWrite_of_lt s h, h]
  · simp [State.memWrite_of_le s h, Nat.not_lt_of_le h]

theorem State.memWrite_mem {s t : State p} {a : Nat} {b : Byte} (h : s.memWrite a b = some t) : t.mem = s.mem.put a b := by
  obtain ⟨_, rfl⟩ := State.memWrite_eq_some_iff.mp h
  rfl

theorem State.memWrite_pc {s t : State p} {a : Nat} {b : Byte} (h : s.memWrite a b = some t) : t.pc = s.pc := by
  obtain ⟨_, rfl⟩ := State.memWrite_eq_some_iff.mp h
  rfl

theorem State.memWrite_i {s t : State p} {a : Nat} {b : Byte} (h : s.memWrite a b = some t) : t.i = s.i := by
  obtain ⟨_, rfl⟩ := State.memWrite_eq_some_iff.mp h
  rfl

/-- Settles O20: neither write moves `pc`, and the second one leaves the byte at `pc`. -/
theorem storedBytesAreFetchedNext : Obligations.StoredBytesAreFetchedNext := by
  intro p s t u b0 b1 h0 h1
  obtain ⟨hlt, _⟩ := State.memWrite_eq_some_iff.mp h1
  have hmem : u.mem = (s.mem.put s.pc.toNat b0).put (s.pc.toNat + 1) b1 := by
    rw [State.memWrite_mem h1, State.memWrite_mem h0, State.memWrite_pc h0]
  rw [State.fetch_of_lt u (by rwa [State.memWrite_pc h1]), State.memWrite_pc h1, State.memWrite_pc h0, hmem,
    Memory.lookup_put_other _ _ (by omega), Memory.lookup_put_same, Memory.lookup_put_same]

/-! ### Memory outside the bytes an instruction stores (R64). -/

theorem State.memRead_memWrite_other {s t : State p} {a c : Nat} {b : Byte} (h : s.memWrite a b = some t) (hc : c ≠ a) :
    t.memRead c = s.memRead c := by
  obtain ⟨ha, rfl⟩ := State.memWrite_eq_some_iff.mp h
  exact (Memory.read_put s.mem ha b c).trans (if_neg hc)

/-- Wherever the stores stop, they have reached no address outside their range. -/
theorem memRead_storeBytes_of_outside (op : Word) (bytes : List Byte) (k : Nat) (s : State p) {a : Nat}
    (ha : ¬ (s.dataAddr k ≤ a ∧ a < s.dataAddr (k + bytes.length))) :
    (storeBytes op k bytes s).memRead a = s.memRead a := by
  induction bytes generalizing k s with
  | nil => rfl
  | cons b bs ih =>
    simp only [State.dataAddr_eq, List.length_cons] at ha
    rw [storeBytes]
    split
    · rfl
    · next t ht =>
      have hfirst : a ≠ s.dataAddr k := by rw [State.dataAddr_eq]; omega
      have hrest : ¬ (t.dataAddr (k + 1) ≤ a ∧ a < t.dataAddr (k + 1 + bs.length)) := by
        simp only [State.dataAddr_eq, State.memWrite_i ht]; omega
      rw [ih (k + 1) t hrest, State.memRead_memWrite_other ht hfirst]

@[simp] theorem length_bcdDigits (b : Byte) : (bcdDigits b).length = 3 := rfl

@[simp] theorem State.length_regRange (s : State p) (x : Reg) : (s.regRange x).length = rangeLen x := by
  rw [State.regRange, List.length_map, List.length_range]

theorem execAt_memRead_of_outside {i : Instr} {s t : State p} (h : execAt i s = .next t) {a : Nat}
    (ha : ¬ (s.dataAddr 0 ≤ a ∧ a < s.dataAddr i.storeLen)) : t.memRead a = s.memRead a := by
  cases i with
  | bcd x =>
    cases h
    exact memRead_storeBytes_of_outside _ _ 0 s (by rwa [length_bcdDigits, Nat.zero_add])
  | stM x =>
    cases h
    exact memRead_storeBytes_of_outside _ _ 0 s (by rwa [State.length_regRange, Nat.zero_add])
  | _ => exact State.memRead_of_mem_eq (execAt_mem_of_storeLen_eq_zero rfl h) a

/-- Settles O33: FX33 and FX55 store their bytes one by one from `i` up, and no other instruction writes memory. -/
theorem onlyStoredBytesChange : Obligations.OnlyStoredBytesChange :=
  fun i s _ h _ => execAt_memRead_of_outside ((execAt_eq_exec i s).trans h)

end Sys2Proof.Machine
end

section
/-! PROOFS. The decoder and the encoder are inverse to each other (30_encoding.md R81, R86, 40_step_cycle.md R104). A word is its
fields side by side, in each of the three formats of R82: the fields of an assembled word are what it was assembled from, and
the fields of any word assemble to it. -/

namespace Sys2Proof

open Laws.EncodesInRow (wordNNN_eq wordXNN_eq wordXYN_eq)

/-! ### The fields of an assembled word. -/

@[simp] theorem fieldClass_wordNNN (c : Nibble) (nnn : Imm12) : fieldClass (wordNNN c nnn) = c := by
  rw [wordNNN_eq]; exact BitVec.extractLsb'_append_eq_left

@[simp] theorem fieldNNN_wordNNN (c : Nibble) (nnn : Imm12) : fieldNNN (wordNNN c nnn) = nnn := by
  rw [wordNNN_eq]; exact BitVec.extractLsb'_append_eq_right

@[simp] theorem fieldClass_wordXNN (c x : Nibble) (nn : Byte) : fieldClass (wordXNN c x nn) = c := by
  rw [wordXNN_eq, ← wordNNN_eq, fieldClass_wordNNN]

@[simp] theorem fieldX_wordXNN (c x : Nibble) (nn : Byte) : fieldX (wordXNN c x nn) = x := by
  rw [wordXNN_eq, fieldX, BitVec.extractLsb'_append_eq_of_add_le (by decide), BitVec.extractLsb'_append_eq_left]

@[simp] theorem fieldNN_wordXNN (c x : Nibble) (nn : Byte) : fieldNN (wordXNN c x nn) = nn := by
  rw [wordXNN_eq, fieldNN, BitVec.extractLsb'_append_eq_of_add_le (by decide), BitVec.extractLsb'_append_eq_right]

@[simp] theorem fieldClass_wordXYN (c x y n : Nibble) : fieldClass (wordXYN c x y n) = c := by
  rw [wordXYN_eq, ← wordXNN_eq, fieldClass_wordXNN]

@[simp] theorem fieldX_wordXYN (c x y n : Nibble) : fieldX (wordXYN c x y n) = x := by
  rw [wordXYN_eq, ← wordXNN_eq, fieldX_wordXNN]

@[simp] theorem fieldY_wordXYN (c x y n : Nibble) : fieldY (wordXYN c x y n) = y := by
  rw [wordXYN_eq, fieldY, BitVec.extractLsb'_append_eq_of_add_le (by decide),
    BitVec.extractLsb'_append_eq_of_add_le (by decide), BitVec.extractLsb'_append_eq_left]

@[simp] theorem fieldN_wordXYN (c x y n : Nibble) : fieldN (wordXYN c x y n) = n := by
  rw [wordXYN_eq, fieldN, BitVec.extractLsb'_append_eq_of_add_le (by decide),
    BitVec.extractLsb'_append_eq_of_add_le (by decide), BitVec.extractLsb'_append_eq_right]

/-! ### The word of the fields. -/

theorem fieldClass_append_fieldNNN (w : Word) : fieldClass w ++ fieldNNN w = w :=
  BitVec.extractLsb'_append_extractLsb' (w := 4) (len := 12)

theorem fieldX_append_fieldNN (w : Word) : fieldX w ++ fieldNN w = fieldNNN w :=
  BitVec.extractLsb'_append_extractLsb'_eq_extractLsb' rfl

theorem fieldY_append_fieldN (w : Word) : fieldY w ++ fieldN w = fieldNN w :=
  BitVec.extractLsb'_append_extractLsb'_eq_extractLsb' rfl

/-! The keys are given by their values, as the decoder compares them (R104). -/

theorem wordNNN_of_fields {w : Word} {c : Nibble} (hc : (fieldClass w).toNat = c.toNat) : wordNNN c (fieldNNN w) = w := by
  rw [wordNNN_eq, ← BitVec.eq_of_toNat_eq hc, fieldClass_append_fieldNNN]

theorem wordXNN_of_fields {w : Word} {c : Nibble} {nn : Byte} (hc : (fieldClass w).toNat = c.toNat)
    (hnn : (fieldNN w).toNat = nn.toNat) : wordXNN c (fieldX w) nn = w := by
  rw [wordXNN_eq, ← BitVec.eq_of_toNat_eq hnn, fieldX_append_fieldNN, ← wordNNN_eq, wordNNN_of_fields hc]

theorem wordXYN_of_fields {w : Word} {c n : Nibble} (hc : (fieldClass w).toNat = c.toNat)
    (hn : (fieldN w).toNat = n.toNat) : wordXYN c (fieldX w) (fieldY w) n = w := by
  rw [wordXYN_eq, ← BitVec.eq_of_toNat_eq hn, fieldY_append_fieldN, ← wordXNN_eq, wordXNN_of_fields hc rfl]

/-! ### From the instruction to the word and back. -/

/-- One case per place of the key: the class field alone, or a second field of the class too. -/
theorem decode_encode (i : Instr) : decode (encode i) = .ok i := by
  cases i with
  | jp | call | seI | sneI | seR | ldI | addI | sneR | ldA | drw => simp [encode, decode]
  | cls | ret => simp [encode, decode, decodeClass0]
  | ldR | orR | andR | xorR | addR | sub | shr | subn | shl => simp [encode, decode, decodeClass8]
  | bcd | stM | ldM => simp [encode, decode, decodeClassF]

/-- Settles O1: the decoder's keys and operands are the fields the encoder put side by side. -/
theorem decodeOfEncodeIsTheInstruction : Obligations.DecodeOfEncodeIsTheInstruction := decode_encode

/-! ### From the word to the instruction and back. -/

theorem encode_of_decodeClass0 {w : Word} {i : Instr} (hc : (fieldClass w).toNat = 0x0) (h : decodeClass0 w = .ok i) :
    encode i = w := by
  rw [decodeClass0] at h
  split at h <;> cases h
  all_goals exact wordXNN_of_fields hc ‹(fieldNN w).toNat = _›

theorem encode_of_decodeClass8 {w : Word} {i : Instr} (hc : (fieldClass w).toNat = 0x8) (h : decodeClass8 w = .ok i) :
    encode i = w := by
  rw [decodeClass8] at h
  split at h <;> cases h
  all_goals exact wordXYN_of_fields hc ‹(fieldN w).toNat = _›

theorem encode_of_decodeClassF {w : Word} {i : Instr} (hc : (fieldClass w).toNat = 0xF) (h : decodeClassF w = .ok i) :
    encode i = w := by
  rw [decodeClassF] at h
  split at h <;> cases h
  all_goals exact wordXNN_of_fields hc ‹(fieldNN w).toNat = _›

/-- The cases are the arms of `decode` in its order: classes 0, 8 and 0xF have a second key, and the rest fall by their format
(R82); the last arm gives no instruction. -/
theorem encode_of_decode {w : Word} {i : Instr} (h : decode w = .ok i) : encode i = w := by
  rw [decode] at h
  split at h
  case h_1 hc => exact encode_of_decodeClass0 hc h
  case h_9 hc => exact encode_of_decodeClass8 hc h
  case h_13 hc => exact encode_of_decodeClassF hc h
  case h_2 hc | h_3 hc | h_11 hc => cases h; exact wordNNN_of_fields hc
  case h_4 hc | h_5 hc | h_7 hc | h_8 hc => cases h; exact wordXNN_of_fields hc rfl
  case h_6 hc | h_10 hc | h_12 hc => cases h; exact wordXYN_of_fields hc rfl
  case h_14 => cases h

/-- Settles O2: the instruction keeps every field that is no key, and the keys are those its pattern puts back. -/
theorem encodeOfDecodedIsTheWord : Obligations.EncodeOfDecodedIsTheWord := fun _ _ => encode_of_decode

end Sys2Proof
end

section
/-! PROOFS. Control flow (41_control_flow.md): a return after its call, the jump, and the immediate skips. -/

namespace Sys2Proof.Machine

variable {p : Config.Params}

/-! ### A return after its call (R120, R122, R129). -/

/-- A return with `n + 1` addresses on the stack pops the one in slot `n` (R120). -/
theorem execRet_of_succ (g : Nibble) {s : State p} {n : Nat} (hn : n < Config.stackDepth) (h : s.sp.val = n + 1) :
    execRet g s = .next { s with sp := ⟨n, by omega⟩, pc := s.stack[n] } := by
  rw [execRet_of_pos g (by omega)]
  simp only [h, Nat.add_sub_cancel]

/-- Settles O42: the call puts its advanced `pc` in slot `sp` and counts it, and the return pops that slot. -/
theorem returnMatchesCall : Obligations.ReturnMatchesCall := by
  intro nnn g s t u h hcall hsp hslot
  cases (execCall_of_lt nnn h).symm.trans hcall
  have hpushed : u.stack[s.sp.val] = s.pc := hslot.trans (Vector.getElem_set_self h)
  exact ⟨_, execRet_of_succ g h (congrArg Fin.val hsp), rfl, hpushed⟩

/-! ### The word of an instruction keyed on its class alone, and the step that fetches one (R86, R101). -/

theorem decode_of_encode_eq {i : Instr} {w : Word} (h : encode i = w) : decode w = .ok i := h ▸ decode_encode i

theorem encode_jp_of_and_F000 {w : Word} (h : w &&& 0xF000 = 0x1000) : encode (.jp (fieldNNN w)) = w :=
  wordNNN_of_fields (congrArg BitVec.toNat (fieldClass_of_and_F000 h))

theorem encode_seI_of_and_F000 {w : Word} (h : w &&& 0xF000 = 0x3000) : encode (.seI (fieldX w) (fieldNN w)) = w :=
  wordXNN_of_fields (congrArg BitVec.toNat (fieldClass_of_and_F000 h)) rfl

theorem encode_sneI_of_and_F000 {w : Word} (h : w &&& 0xF000 = 0x4000) : encode (.sneI (fieldX w) (fieldNN w)) = w :=
  wordXNN_of_fields (congrArg BitVec.toNat (fieldClass_of_and_F000 h)) rfl

/-- Of the four things a step can do (R101), it executes when the machine is not halted and the fetched word decodes. -/
theorem step_of_decode {s : State} {w : Word} {i : Instr} (hf : s.fault = none) (hw : s.fetch = some w)
    (hd : decode w = .ok i) : step s = exec i s.advance := by
  rcases step_cases s with ⟨h, _⟩ | ⟨_, h, _⟩ | ⟨_, _, _, h, he, _⟩ | ⟨_, _, _, h, hi, hstep⟩
  · exact absurd hf h
  · cases hw.symm.trans h
  · cases hw.symm.trans h; cases hd.symm.trans he
  · cases hw.symm.trans h; cases hd.symm.trans hi; exact hstep

/-! ### The jump (R121). -/

/-- Settles O39: the class field picks the row, the zero-extended immediate is `pc`, and a jump to its own address puts back
the `pc` that the step advanced. -/
theorem jumpReplacesPc : Obligations.JumpReplacesPc := by
  refine ⟨fun _ hw => decode_of_encode_eq (encode_jp_of_and_F000 hw),
    fun nnn s => ⟨s.setPc (immNNN nnn), rfl, immNNN_toNat nnn, rfl⟩, fun nnn s hf hpc hw => ?_⟩
  have htarget : immNNN nnn = s.pc := BitVec.eq_of_toNat_eq ((immNNN_toNat nnn).trans hpc.symm)
  calc step s = exec (.jp nnn) s.advance := step_of_decode hf hw (decode_encode _)
    _ = .next (s.advance.setPc (immNNN nnn)) := rfl
    _ = .next (s.advance.setPc s.pc) := by rw [htarget]
    _ = .next s := rfl

/-! ### The skips (R123, R124, R127). -/

theorem State.skipIf_frame (s : State p) (c : Bool) : s.skipIf c = { s with pc := (s.skipIf c).pc } := by
  cases c <;> rfl

theorem State.skipIf_pc_toNat (s : State p) (c : Bool) :
    (s.skipIf c).pc.toNat = if c then (s.pc.toNat + 2) % 65536 else s.pc.toNat := by
  cases c
  · rfl
  · exact BitVec.toNat_add s.pc 2

theorem State.skipIf_beq_pc_toNat (s : State p) (a b : Byte) :
    (s.skipIf (a == b)).pc.toNat = if a.toNat = b.toNat then (s.pc.toNat + 2) % 65536 else s.pc.toNat := by
  simp only [State.skipIf_pc_toNat, beq_iff_eq, BitVec.toNat_inj]

theorem State.skipIf_bne_pc_toNat (s : State p) (a b : Byte) :
    (s.skipIf (a != b)).pc.toNat = if a.toNat = b.toNat then s.pc.toNat else (s.pc.toNat + 2) % 65536 := by
  simp only [State.skipIf_pc_toNat, bne_iff_ne, ite_not, ne_eq, BitVec.toNat_inj]

/-- Settles O43: the class field picks the row, and each skip moves `pc` alone, by the comparison of `V[X]` with the immediate. -/
theorem immediateSkips : Obligations.ImmediateSkips :=
  ⟨fun _ hw => decode_of_encode_eq (encode_seI_of_and_F000 hw), fun _ hw => decode_of_encode_eq (encode_sneI_of_and_F000 hw),
    fun _ _ s => ⟨⟨_, rfl, s.skipIf_frame _, s.skipIf_beq_pc_toNat _ _⟩, ⟨_, rfl, s.skipIf_frame _, s.skipIf_bne_pc_toNat _ _⟩⟩⟩

end Sys2Proof.Machine
end

section
/-! PROOFS. The register loads and the ALU (42_load_and_alu.md): which words they are, what they write, and that nothing else
changes. -/

namespace Sys2Proof.Machine

variable {p : Config.Params}

/-! ### A word masked to its keys is an assembled word with 0 in the other fields (R81, R86). -/

theorem wordXNN_of_and_F000 {w : Word} {c : Nibble} (h : w &&& 0xF000 = wordXNN c 0 0) :
    wordXNN c (fieldX w) (fieldNN w) = w := by
  have hclass : fieldClass w = c := (fieldClass_of_and_F000 h).trans (fieldClass_wordXNN c 0 0)
  exact wordXNN_of_fields (congrArg BitVec.toNat hclass) rfl

theorem fieldClass_of_and_F00F {w pattern : Word} (h : w &&& 0xF00F = pattern) : fieldClass w = fieldClass pattern := by
  rw [← h, fieldClass, fieldClass, BitVec.extractLsb'_and]
  exact BitVec.and_allOnes.symm

theorem fieldN_of_and_F00F {w pattern : Word} (h : w &&& 0xF00F = pattern) : fieldN w = fieldN pattern := by
  rw [← h, fieldN, fieldN, BitVec.extractLsb'_and]
  exact BitVec.and_allOnes.symm

theorem wordXYN_of_and_F00F {w : Word} {c n : Nibble} (h : w &&& 0xF00F = wordXYN c 0 0 n) :
    wordXYN c (fieldX w) (fieldY w) n = w := by
  have hclass : fieldClass w = c := (fieldClass_of_and_F00F h).trans (fieldClass_wordXYN c 0 0 n)
  have hn : fieldN w = n := (fieldN_of_and_F00F h).trans (fieldN_wordXYN c 0 0 n)
  exact wordXYN_of_fields (congrArg BitVec.toNat hclass) (congrArg BitVec.toNat hn)

/-! ### The byte operations as the spec's arithmetic (R13: every value is unsigned, every result modulo 256). -/

theorem byte_add_eq_ofNat (a b : Byte) : a + b = BitVec.ofNat 8 ((a.toNat + b.toNat) % 256) := by
  apply BitVec.eq_of_toNat_eq
  simp

theorem byte_sub_eq_ofNat (a b : Byte) : a - b = BitVec.ofNat 8 ((a.toNat + 256 - b.toNat) % 256) := by
  have hb := b.isLt
  apply BitVec.eq_of_toNat_eq
  simp only [BitVec.toNat_sub, BitVec.toNat_ofNat]
  omega

theorem byte_shiftRight_one_eq_ofNat (a : Byte) : a >>> 1 = BitVec.ofNat 8 (a.toNat / 2) := by
  have ha := a.isLt
  apply BitVec.eq_of_toNat_eq
  simp only [BitVec.toNat_ushiftRight, BitVec.toNat_ofNat, Nat.shiftRight_eq_div_pow]
  omega

theorem byte_shiftLeft_one_eq_ofNat (a : Byte) : a <<< 1 = BitVec.ofNat 8 (2 * a.toNat % 256) := by
  apply BitVec.eq_of_toNat_eq
  simp only [BitVec.toNat_shiftLeft, BitVec.toNat_ofNat, Nat.shiftLeft_eq]
  omega

/-! ### The flags as the spec's comparisons and quotients (R146 to R150). -/

theorem flagByte_decide (c : Prop) [Decidable c] : flagByte (decide c) = if c then 1 else 0 := by
  simp only [flagByte, decide_eq_true_eq]

theorem carryFlag_eq_ite (a b : Byte) : carryFlag a b = if 255 < a.toNat + b.toNat then 1 else 0 :=
  flagByte_decide _

theorem greaterFlag_eq_ite (a b : Byte) : greaterFlag a b = if b.toNat < a.toNat then 1 else 0 :=
  flagByte_decide _

theorem byte_and_one_eq_ofNat (a : Byte) : a &&& 1 = BitVec.ofNat 8 (a.toNat % 2) := by
  apply BitVec.eq_of_toNat_eq
  have hand : (a &&& 1).toNat = a.toNat % 2 := (BitVec.toNat_and a 1).trans (Nat.and_one_is_mod a.toNat)
  rw [hand, BitVec.toNat_ofNat]
  omega

theorem lowBitFlag_eq_ofNat (a : Byte) : lowBitFlag a = BitVec.ofNat 8 (a.toNat % 2) :=
  byte_and_one_eq_ofNat a

theorem highBitFlag_eq_ofNat (a : Byte) : highBitFlag a = BitVec.ofNat 8 (a.toNat / 128) := by
  have ha := a.isLt
  have hshift : (a >>> 7).toNat = a.toNat / 128 := by
    rw [BitVec.toNat_ushiftRight, Nat.shiftRight_eq_div_pow]
  rw [highBitFlag, byte_and_one_eq_ofNat, hshift, Nat.mod_eq_of_lt (by omega)]

/-! ### Instructions that write one register and no flag (R140 to R145). -/

theorem setsRegs_of_setReg {i : Instr} {s : State} {x : Reg} {b : Byte} (h : exec i s = .next (s.setReg x b)) :
    SetsRegs i s fun k => if k = x then b else s.reg k :=
  ⟨_, h, fun k => s.reg_setReg k x b, rfl⟩

theorem exec_addI (x : Reg) (nn : Byte) (s : State) :
    exec (.addI x nn) s = .next (s.setReg x (BitVec.ofNat 8 (((s.reg x).toNat + nn.toNat) % 256))) := by
  rw [← byte_add_eq_ofNat]; rfl

/-- Settles O23: the class field picks the row, and the meaning is one register write. -/
theorem loadImmediateSetsTheRegister : Obligations.LoadImmediateSetsTheRegister :=
  ⟨fun _ hw => decode_of_encode_eq (wordXNN_of_and_F000 (c := 0x6) hw), fun _ _ _ => setsRegs_of_setReg rfl⟩

/-- Settles O24: the class field picks the row, and the meaning is one register write, of the sum. -/
theorem addImmediateWrapsWithoutFlag : Obligations.AddImmediateWrapsWithoutFlag :=
  ⟨fun _ hw => decode_of_encode_eq (wordXNN_of_and_F000 (c := 0x7) hw),
    fun x nn s => setsRegs_of_setReg (exec_addI x nn s)⟩

/-- Settles O25: the class field and `N` pick the row, and the meaning is one register write. -/
theorem copyRegisterCopies : Obligations.CopyRegisterCopies :=
  ⟨fun _ hw => decode_of_encode_eq (wordXYN_of_and_F00F (c := 0x8) (n := 0x0) hw), fun _ _ _ => setsRegs_of_setReg rfl⟩

/-- Settles O26: the class field and `N` pick each row, and each meaning is one register write. -/
theorem logicalOperationsAreBitwise : Obligations.LogicalOperationsAreBitwise :=
  ⟨fun _ hw => decode_of_encode_eq (wordXYN_of_and_F00F (c := 0x8) (n := 0x1) hw),
    fun _ hw => decode_of_encode_eq (wordXYN_of_and_F00F (c := 0x8) (n := 0x2) hw),
    fun _ hw => decode_of_encode_eq (wordXYN_of_and_F00F (c := 0x8) (n := 0x3) hw),
    fun _ _ _ => ⟨setsRegs_of_setReg rfl, setsRegs_of_setReg rfl, setsRegs_of_setReg rfl⟩⟩

/-! ### The addition, whose flag comes last (R146). -/

theorem setsRegs_of_setReg_setReg {i : Instr} {s : State} {x y : Reg} {b c : Byte}
    (h : exec i s = .next ((s.setReg x b).setReg y c)) :
    SetsRegs i s fun k => if k = y then c else if k = x then b else s.reg k :=
  ⟨_, h, fun k => by rw [State.reg_setReg, State.reg_setReg], rfl⟩

theorem exec_addR (x y : Reg) (s : State) : exec (.addR x y) s =
    .next ((s.setReg x (BitVec.ofNat 8 (((s.reg x).toNat + (s.reg y).toNat) % 256))).setReg vf
      (if 255 < (s.reg x).toNat + (s.reg y).toNat then 1 else 0)) := by
  rw [← byte_add_eq_ofNat, ← carryFlag_eq_ite]; rfl

/-- Settles O27: the carry is of the registers before the sum is written, and its write is the last one. -/
theorem addRegistersThenCarry : Obligations.AddRegistersThenCarry :=
  ⟨fun _ hw => decode_of_encode_eq (wordXYN_of_and_F00F (c := 0x8) (n := 0x4) hw),
    fun x y s => setsRegs_of_setReg_setReg (exec_addR x y s)⟩

/-! ### The subtractions and shifts, whose flag comes first (R147 to R150, R152, decision D5). -/

/-- The flag is written, then `V[X]` gets a value computed from the registers as that write left them. -/
def State.flagThenReg (s : State p) (flag : Byte) (x : Reg) (value : (Reg → Byte) → Byte) : State p :=
  let t := s.setReg vf flag
  t.setReg x (value t.reg)

theorem setsRegs_of_flagThenReg {i : Instr} {s : State} {flag : Byte} {x : Reg} {value : (Reg → Byte) → Byte}
    (h : exec i s = .next (s.flagThenReg flag x value)) :
    SetsRegs i s fun k =>
      let mid : Reg → Byte := fun j => if j = vf then flag else s.reg j
      if k = x then value mid else mid k := by
  have hmid : (s.setReg vf flag).reg = fun j => if j = vf then flag else s.reg j :=
    funext fun j => s.reg_setReg j vf flag
  exact ⟨_, h, fun k => by rw [State.flagThenReg, State.reg_setReg, hmid], rfl⟩

theorem exec_sub (x y : Reg) (s : State) : exec (.sub x y) s =
    .next (s.flagThenReg (if (s.reg y).toNat < (s.reg x).toNat then 1 else 0) x
      fun v => BitVec.ofNat 8 (((v x).toNat + 256 - (v y).toNat) % 256)) := by
  simp only [← byte_sub_eq_ofNat, ← greaterFlag_eq_ite]; rfl

theorem exec_subn (x y : Reg) (s : State) : exec (.subn x y) s =
    .next (s.flagThenReg (if (s.reg x).toNat < (s.reg y).toNat then 1 else 0) x
      fun v => BitVec.ofNat 8 (((v y).toNat + 256 - (v x).toNat) % 256)) := by
  simp only [← byte_sub_eq_ofNat, ← greaterFlag_eq_ite]; rfl

theorem exec_shr (x : Reg) (g : Nibble) (s : State) : exec (.shr x g) s =
    .next (s.flagThenReg (BitVec.ofNat 8 ((s.reg x).toNat % 2)) x fun v => BitVec.ofNat 8 ((v x).toNat / 2)) := by
  simp only [← byte_shiftRight_one_eq_ofNat, ← lowBitFlag_eq_ofNat]; rfl

theorem exec_shl (x : Reg) (g : Nibble) (s : State) : exec (.shl x g) s =
    .next (s.flagThenReg (BitVec.ofNat 8 ((s.reg x).toNat / 128)) x
      fun v => BitVec.ofNat 8 (2 * (v x).toNat % 256)) := by
  simp only [← byte_shiftLeft_one_eq_ofNat, ← highBitFlag_eq_ofNat]; rfl

/-- Settles O28: the flag compares the registers before any write, and the difference is of the registers after the flag's. -/
theorem subtractFlagThenDifference : Obligations.SubtractFlagThenDifference :=
  fun x y s => ⟨setsRegs_of_flagThenReg (exec_sub x y s), setsRegs_of_flagThenReg (exec_subn x y s)⟩

/-- Settles O29: the flag is a bit of `V[X]` before any write, and the shift is of `V[X]` after the flag's. -/
theorem shiftFlagThenShift : Obligations.ShiftFlagThenShift :=
  fun x g s => ⟨setsRegs_of_flagThenReg (exec_shr x g s), setsRegs_of_flagThenReg (exec_shl x g s)⟩

end Sys2Proof.Machine
end

section
/-! PROOFS. The display (43_display.md): clearing the screen. -/

namespace Sys2Proof.Machine

variable {p : Config.Params}

/-! ### The clear (R170, R59). -/

theorem State.clearScreen_frame (s : State p) :
    s.clearScreen = { s with fb := s.clearScreen.fb, dirty := s.clearScreen.dirty } := rfl

theorem exec_cls (g : Nibble) (s : State) : exec (.cls g) s = .next s.clearScreen := rfl

/-- Settles O22: the meaning is `ClearScreen` whatever the don't-care bits, and that reads 0 at every pixel. -/
theorem clearScreenClearsEveryPixel : Obligations.ClearScreenClearsEveryPixel :=
  fun g s => ⟨s.clearScreen, exec_cls g s, s.pixelGet_clearScreen, s.clearScreen_dirty, s.clearScreen_frame⟩

end Sys2Proof.Machine
end

section
/-! PROOFS. The memory transfers (44_memory_transfer.md): what a store in bounds leaves in memory, what a load in bounds leaves
in the registers, and the round trip of the two. -/

namespace Sys2Proof.Machine

variable {p : Config.Params}

/-! ### A store in bounds (R190, R191). -/

theorem memRead_storeBytes_of_fits (op : Word) {bytes : List Byte} {k j : Nat} {s : State p}
    (hfit : s.dataAddr k + bytes.length ≤ p.cap) (hj : j < bytes.length) :
    (storeBytes op k bytes s).memRead (s.dataAddr k + j) = some bytes[j] := by
  rw [storeBytes_of_fits op bytes k s hfit, State.memRead_of_lt _ (by omega), Memory.lookup_putBytes,
    dif_pos ⟨Nat.le_add_right _ j, by omega⟩]
  simp only [Nat.add_sub_cancel_left]

theorem State.getElem_regRange (s : State p) {x k : Reg} (hk : k.toNat < (s.regRange x).length) :
    (s.regRange x)[k.toNat] = s.reg k := by
  simp only [State.regRange, List.getElem_map, List.getElem_range, BitVec.ofNat_toNat, BitVec.setWidth_eq]

/-- A range whose last byte is in bounds is in bounds whole. -/
theorem State.dataAddr_add_rangeLen_le {s : State p} {x : Reg} (h : s.dataAddr x.toNat < p.cap) :
    s.dataAddr 0 + rangeLen x ≤ p.cap := by
  simp only [State.dataAddr_eq, rangeLen] at *; omega

theorem execStM_memRead {x : Reg} {s t : State p} (h : execStM x s = .next t) (hfit : s.dataAddr x.toNat < p.cap)
    {k : Reg} (hk : k.toNat ≤ x.toNat) : t.memRead (s.dataAddr k.toNat) = some (s.reg k) := by
  cases h
  have hlen : k.toNat < (s.regRange x).length := by rw [State.length_regRange, rangeLen]; omega
  have hrange : s.dataAddr 0 + (s.regRange x).length ≤ p.cap := by
    rw [State.length_regRange]; exact State.dataAddr_add_rangeLen_le hfit
  exact (memRead_storeBytes_of_fits _ hrange hlen).trans (congrArg some (s.getElem_regRange hlen))

theorem execStM_i {x : Reg} {s t : State p} (h : execStM x s = .next t) : t.i = s.i := by
  cases h; exact storeBytes_i _ _ _ s

/-! ### A load in bounds (R192). -/

theorem execLdM_of_fits {x : Reg} {s : State p} (hfit : s.dataAddr x.toNat < p.cap) :
    execLdM x s = .next { s with v := loadedV s (rangeLen x) 0 } :=
  congrArg Host.Outcome.next (loadRegs_of_fits _ _ 0 s (State.dataAddr_add_rangeLen_le hfit))

theorem execLdM_reg_of_le {x : Reg} {s t : State p} (h : execLdM x s = .next t) (hfit : s.dataAddr x.toNat < p.cap)
    {k : Reg} (hk : k.toNat ≤ x.toNat) : s.memRead (s.dataAddr k.toNat) = some (t.reg k) := by
  cases (execLdM_of_fits hfit).symm.trans h
  have hx := reg_lt x
  have hloaded : (loadedV s (rangeLen x) 0)[k.toNat]'(reg_lt k) = s.mem.lookup (s.dataAddr k.toNat) := by
    rw [reg_loadedV _ _ _ _ (by rw [rangeLen]; omega), if_pos (by rw [rangeLen]; omega)]
  have hin : s.dataAddr k.toNat < p.cap := by simp only [State.dataAddr_eq] at *; omega
  exact (s.memRead_of_lt hin).trans (congrArg some hloaded.symm)

theorem execLdM_reg_of_lt {x : Reg} {s t : State p} (h : execLdM x s = .next t) {k : Reg} (hk : x.toNat < k.toNat) :
    t.reg k = s.reg k := by
  cases h; exact reg_loadRegs_of_le _ _ _ s (by rw [rangeLen]; omega)

/-! ### The round trip (R194). -/

/-- Settles O48: the load reads at the store's addresses, `i` being the same, and finds there the bytes the store put. -/
theorem storeThenLoadRestoresRegisters : Obligations.StoreThenLoadRestoresRegisters := by
  intro x s t u hstore hfit hi hbytes
  have haddr (k : Nat) : u.dataAddr k = s.dataAddr k := by
    rw [State.dataAddr_eq, State.dataAddr_eq, hi, execStM_i hstore]
  have hfitU : u.dataAddr x.toNat < Config.cap := (haddr _).symm ▸ hfit
  have hload := execLdM_of_fits hfitU
  refine ⟨_, hload, fun k hk => Option.some.inj ?_, fun k hk => execLdM_reg_of_lt hload hk⟩
  calc some _ = u.memRead (u.dataAddr k.toNat) := (execLdM_reg_of_le hload hfitU hk).symm
    _ = t.memRead (s.dataAddr k.toNat) := by rw [haddr, hbytes _ hk]
    _ = some (s.reg k) := execStM_memRead hstore hfit hk

end Sys2Proof.Machine
end

section
/-! PROOFS. The call stack under an instruction (10_state.md section 4). -/

namespace Sys2Proof.Machine

variable {p : Config.Params}

/-! ### The operations an instruction is made of, but for the push and the pop, leave the slots and `sp`. -/

theorem State.skipIf_callStack (s : State p) (c : Bool) : (s.skipIf c).stack = s.stack ∧ (s.skipIf c).sp = s.sp := by
  cases c <;> exact ⟨rfl, rfl⟩

theorem storeBytes_callStack (op : Word) (k : Nat) (bytes : List Byte) (s : State p) :
    (storeBytes op k bytes s).stack = s.stack ∧ (storeBytes op k bytes s).sp = s.sp := by
  obtain ⟨m, f, h⟩ := storeBytes_frame op k bytes s
  rw [h]; exact ⟨rfl, rfl⟩

theorem loadRegs_callStack (op : Word) (count k : Nat) (s : State p) :
    (loadRegs op count k s).stack = s.stack ∧ (loadRegs op count k s).sp = s.sp := by
  obtain ⟨c, f, _, h⟩ := loadRegs_frame op count k s
  rw [h]; exact ⟨rfl, rfl⟩

theorem SameButDrawn.callStack_eq {s t : State p} (h : SameButDrawn s t) : t.stack = s.stack ∧ t.sp = s.sp := by
  rw [h.2]; exact ⟨rfl, rfl⟩

/-! ### The call stack under an instruction. -/

theorem execRet_stack {g : Nibble} {s t : State p} (h : execRet g s = .next t) : t.stack = s.stack := by
  obtain ⟨_, _, rfl⟩ | rfl := execRet_cases h <;> rfl

theorem exec_callStack_of_ne {i : Instr} {s t : State} (hcall : ∀ nnn, i ≠ .call nnn) (hret : ∀ g, i ≠ .ret g)
    (h : exec i s = .next t) : t.stack = s.stack ∧ t.sp = s.sp := by
  cases i with
  | call nnn => exact absurd rfl (hcall nnn)
  | ret g => exact absurd rfl (hret g)
  | cls | jp | ldI | addI | ldR | orR | andR | xorR | addR | sub | shr | subn | shl | ldA => cases h; exact ⟨rfl, rfl⟩
  | seI | sneI | seR | sneR => cases h; exact State.skipIf_callStack s _
  | drw => exact (sameButDrawn_execDrw h).callStack_eq
  | bcd | stM => cases h; exact storeBytes_callStack _ _ _ s
  | ldM => cases h; exact loadRegs_callStack _ _ _ s

theorem exec_stack_of_ne_call {i : Instr} {s t : State} (hcall : ∀ nnn, i ≠ .call nnn) (h : exec i s = .next t) :
    t.stack = s.stack := by
  by_cases hret : ∃ g, i = .ret g
  · obtain ⟨g, rfl⟩ := hret
    exact execRet_stack h
  · exact (exec_callStack_of_ne hcall (not_exists.mp hret) h).1

/-- Settles O34: a return moves `sp` and keeps its slots, and every instruction but it and the call keeps both. -/
theorem onlyCallAndReturnChangeTheStack : Obligations.OnlyCallAndReturnChangeTheStack :=
  fun _ _ _ h => ⟨fun hcall => exec_stack_of_ne_call hcall h, fun hcall hret => (exec_callStack_of_ne hcall hret h).2⟩

end Sys2Proof.Machine
end

section
/-! PROOFS. The sprite draw (43_display.md section 2): its flag is 0 or 1, and it stops at the first row it cannot read. -/

namespace Sys2Proof.Machine

variable {p : Config.Params}

/-! ### What every pixel of a draw keeps, the draw keeps. -/

theorem drawRow_induction {P : State p → Prop} {x y : Reg} {b : Byte} {row : Nat}
    (hpixel : ∀ s col, P s → P (drawPixel x y b row s col)) {s : State p} (hs : P s) : P (drawRow x y b row s) :=
  List.foldlRecOn _ _ hs fun s hs col _ => hpixel s col hs

theorem drawRows_induction {P : State p → Prop} {x y : Reg}
    (hpixel : ∀ b row s col, P s → P (drawPixel x y b row s col)) (count row : Nat) {s : State p} (hs : P s) :
    P (drawRows x y count row s) := by
  induction count generalizing row s with
  | zero => exact hs
  | succ n ih =>
    rw [drawRows]
    split
    · exact hs
    · next b _ => exact ih _ (drawRow_induction (hpixel b row) hs)

/-! ### The collision flag stays 0 or 1 (R172). -/

theorem collisionFlag_eq_zero_or_one {old : Byte} (hold : old = 0 ∨ old = 1) (color cur : Pixel) :
    collisionFlag old color cur = 0 ∨ collisionFlag old color cur = 1 := by
  rcases hold with rfl | rfl <;> rcases Pixel.cases (color &&& cur) with h | h <;> rw [collisionFlag, h] <;> decide

theorem reg_vf_drawPixel (x y : Reg) (b : Byte) (row : Nat) (s : State p) (col : Nat) :
    (drawPixel x y b row s col).reg vf = collisionFlag (s.reg vf) (spritePixel b col)
      (s.pixelGet (wrapCol ((s.reg x).toNat + col)) (wrapRow ((s.reg y).toNat + row))) :=
  State.reg_setReg_same s vf _

theorem reg_vf_drawRows_eq_zero_or_one (x y : Reg) (count row : Nat) {s : State p}
    (hs : s.reg vf = 0 ∨ s.reg vf = 1) :
    (drawRows x y count row s).reg vf = 0 ∨ (drawRows x y count row s).reg vf = 1 :=
  drawRows_induction (P := fun s => s.reg vf = 0 ∨ s.reg vf = 1)
    (fun b row s col hs => by rw [reg_vf_drawPixel]; exact collisionFlag_eq_zero_or_one hs _ _) count row hs

/-- Settles O51: the draw's loops have a result from every state, the flag is reset and then collects single bits, and each
pixel writes `VF`, the frame and `dirty` alone. -/
theorem drawCompletesAndKeepsTheRest : Obligations.DrawCompletesAndKeepsTheRest := by
  intro x y n s
  obtain ⟨hreg, hrest⟩ := sameButDrawn_execDrw (rfl : execDrw x y n s = .next _)
  exact ⟨_, rfl, reg_vf_drawRows_eq_zero_or_one x y _ 0 (.inl (State.reg_setReg_same s vf 0)), hreg, hrest⟩

/-! ### The rows beyond the capacity draw nothing (R172 corner case 2, R239). -/

theorem State.dataAddr_drawRow (x y : Reg) (b : Byte) (row : Nat) (s : State p) (k : Nat) :
    (drawRow x y b row s).dataAddr k = s.dataAddr k := by
  rw [State.dataAddr_eq, State.dataAddr_eq, (sameButDrawn_drawRow x y b row s).i_eq]

theorem drawRows_of_lt (x y : Reg) (n : Nat) {row : Nat} {s : State p} (h : s.dataAddr row < p.cap) :
    drawRows x y (n + 1) row s = drawRows x y n (row + 1) (drawRow x y (s.mem.lookup (s.dataAddr row)) row s) := by
  simp only [drawRows, State.memRead_of_lt s h]

theorem drawRows_of_le (x y : Reg) (count : Nat) {row : Nat} {s : State p} (h : p.cap ≤ s.dataAddr row) :
    drawRows x y count row s = s := by
  cases count with
  | zero => rfl
  | succ n => simp only [drawRows, State.memRead_of_le s h]

/-- Of the rows asked for, those whose bytes lie below the capacity are drawn. -/
theorem drawRows_eq_drawRows_min (x y : Reg) (count row : Nat) (s : State p) :
    drawRows x y count row s = drawRows x y (min count (p.cap - s.dataAddr row)) row s := by
  induction count generalizing row s with
  | zero => rw [Nat.zero_min]
  | succ n ih =>
    rcases Nat.lt_or_ge (s.dataAddr row) p.cap with hrow | hrow
    · have hmin : min (n + 1) (p.cap - s.dataAddr row) = min n (p.cap - s.dataAddr (row + 1)) + 1 := by
        simp only [State.dataAddr_eq] at *; omega
      rw [hmin, drawRows_of_lt x y _ hrow, drawRows_of_lt x y _ hrow, ih, State.dataAddr_drawRow]
    · rw [drawRows_of_le x y _ hrow, drawRows_of_le x y _ hrow]

/-- Fewer than 16 rows are in bounds when a draw runs past the capacity, so that their number is a row count again. -/
theorem rowCount_rowsInBounds {n : Nibble} {s : State p} (h : p.cap < s.dataAddr n.toNat) :
    rowCount (BitVec.ofNat 4 (p.cap - s.dataAddr 0)) = min (rowCount n) (p.cap - s.dataAddr 0) := by
  have hn := n.isLt
  simp only [State.dataAddr_eq] at *
  rw [rowCount, rowCount, BitVec.toNat_ofNat, Nat.mod_eq_of_lt (by omega)]
  omega

theorem execDrw_of_overflow (x y : Reg) {n : Nibble} {s : State p} (h : p.cap < s.dataAddr n.toNat) :
    execDrw x y n s = execDrw x y (BitVec.ofNat 4 (p.cap - s.dataAddr 0)) s := by
  rw [execDrw, execDrw, rowCount_rowsInBounds h]
  exact congrArg Host.Outcome.next (drawRows_eq_drawRows_min x y _ 0 _)

/-- Settles O54: the draw ends at the first row it cannot read, and that is the first one at or beyond the capacity. -/
theorem drawStopsAtTheFirstUnreadableRow : Obligations.DrawStopsAtTheFirstUnreadableRow :=
  ⟨fun x y _ _ h => execDrw_of_overflow x y h, fun _ x y _ _ h => execDrw_of_overflow x y h⟩

end Sys2Proof.Machine
end

section
/-! PROOFS. Raising a fault (60_exceptions.md R230 to R237): which instructions raise, in which state, and what the record
says. -/

namespace Sys2Proof.Machine

variable {p : Config.Params}

/-! ### A byte loop that raises has run past the capacity (R231, R237). -/

theorem storeBytes_of_raises {op : Word} {k : Nat} {bytes : List Byte} {s : State p} (hs : s.fault = none)
    (h : (storeBytes op k bytes s).fault ≠ none) : ∃ m, storeBytes op k bytes s =
      State.raiseData { s with mem := m } op (max p.cap (s.dataAddr k)) .dataWrite := by
  cases bytes with
  | nil => exact absurd hs h
  | cons b bs =>
    by_cases hfit : s.dataAddr k + (b :: bs).length ≤ p.cap
    · rw [storeBytes_of_fits op _ k s hfit] at h
      exact absurd hs h
    · exact ⟨_, storeBytes_of_overflow op _ k s (List.cons_ne_nil b bs) (Nat.lt_of_not_le hfit)⟩

theorem loadRegs_of_raises {op : Word} {count k : Nat} {s : State p} (hs : s.fault = none)
    (h : (loadRegs op count k s).fault ≠ none) : ∃ v, loadRegs op count k s =
      State.raiseData { s with v := v } op (max p.cap (s.dataAddr k)) .dataRead := by
  cases count with
  | zero => exact absurd hs h
  | succ n =>
    by_cases hfit : s.dataAddr k + (n + 1) ≤ p.cap
    · rw [loadRegs_of_fits op _ k s hfit] at h
      exact absurd hs h
    · exact ⟨_, loadRegs_of_overflow op _ k s n.succ_pos (Nat.lt_of_not_le hfit)⟩

/-! ### A draw raises nothing. -/

theorem SameButDrawn.fault_eq {s t : State p} (h : SameButDrawn s t) : t.fault = s.fault := by rw [h.2]

/-! ### The instructions that raise (R230). -/

/-- `i` at `s` raises a fault, and `t` is the state that carries it: one case for each instruction of R231, R233, R234. -/
inductive Raises (s : State) : Instr → State → Prop
  | ret (g : Nibble) (hsp : s.sp.val = 0) : Raises s (.ret g) (s.raisePlain .stackUnderflow (encode (.ret g)))
  | call (nnn : Imm12) (hsp : s.sp.val = Config.stackDepth) :
      Raises s (.call nnn) (s.raisePlain .stackOverflow (encode (.call nnn)))
  | bcd (x : Reg) (m : Memory) : Raises s (.bcd x)
      (State.raiseData { s with mem := m } (encode (.bcd x)) (max Config.cap (s.dataAddr 0)) .dataWrite)
  | stM (x : Reg) (m : Memory) : Raises s (.stM x)
      (State.raiseData { s with mem := m } (encode (.stM x)) (max Config.cap (s.dataAddr 0)) .dataWrite)
  | ldM (x : Reg) (v : Vector Byte Config.numRegs) : Raises s (.ldM x)
      (State.raiseData { s with v := v } (encode (.ldM x)) (max Config.cap (s.dataAddr 0)) .dataRead)

theorem exec_raises {i : Instr} {s t : State} (h : exec i s = .next t) (hs : s.fault = none) (ht : t.fault ≠ none) :
    Raises s i t := by
  cases i with
  | cls | jp | ldI | addI | ldR | orR | andR | xorR | addR | sub | shr | subn | shl | ldA =>
    cases h; exact absurd hs ht
  | seI | sneI | seR | sneR => cases h; exact absurd ((State.skipIf_fault s _).trans hs) ht
  | drw => exact absurd ((sameButDrawn_execDrw h).fault_eq.trans hs) ht
  | ret g =>
    rcases Nat.eq_zero_or_pos s.sp.val with h0 | h0
    · cases (execRet_of_empty g h0).symm.trans h; exact .ret g h0
    · cases (execRet_of_pos g h0).symm.trans h; exact absurd hs ht
  | call nnn =>
    by_cases h16 : s.sp.val < Config.stackDepth
    · cases (execCall_of_lt nnn h16).symm.trans h; exact absurd hs ht
    · cases (execCall_of_full nnn h16).symm.trans h
      exact .call nnn (Nat.le_antisymm (Nat.le_of_lt_succ s.sp.isLt) (Nat.le_of_not_lt h16))
  | bcd x =>
    cases h
    obtain ⟨m, hm⟩ := storeBytes_of_raises hs ht
    rw [hm]; exact .bcd x m
  | stM x =>
    cases h
    obtain ⟨m, hm⟩ := storeBytes_of_raises hs ht
    rw [hm]; exact .stM x m
  | ldM x =>
    cases h
    obtain ⟨v, hv⟩ := loadRegs_of_raises hs ht
    rw [hv]; exact .ldM x v

/-- Settles O37: of the 24 instructions the five of `Raises` alone leave a record where there was none. -/
theorem onlyFiveInstructionsRaise : Obligations.OnlyFiveInstructionsRaise := by
  intro i s t h hs ht
  cases exec_raises h hs ht with
  | ret g => exact .inl ⟨g, rfl⟩
  | call nnn => exact .inr (.inl ⟨nnn, rfl⟩)
  | bcd x => exact .inr (.inr (.inl ⟨x, rfl⟩))
  | stM x => exact .inr (.inr (.inr (.inl ⟨x, rfl⟩)))
  | ldM x => exact .inr (.inr (.inr (.inr ⟨x, rfl⟩)))

/-! ### What is raised fits the state that carries it (R231 to R234). -/

theorem State.instrAddr_add_two (s : State p) : s.instrAddr + 2 = s.pc := BitVec.sub_add_cancel s.pc 2

/-- The recorded address of a failed data access keeps its value in its 17 bits, and lies at or beyond the capacity. -/
theorem cap_le_badAddr (s : State) : Config.cap ≤ (BitVec.ofNat 17 (max Config.cap (s.dataAddr 0))).toNat := by
  have hi := s.i.isLt
  have hlt : max Config.cap (s.dataAddr 0) < 2 ^ 17 := Nat.max_lt.mpr ⟨by decide, by rw [State.dataAddr_eq]; omega⟩
  rw [BitVec.toNat_ofNat, Nat.mod_eq_of_lt hlt]
  exact Nat.le_max_left _ _

theorem Raises.faultFits {i : Instr} {s t : State} (h : Raises s i t) {r : FaultRecord} (hr : t.fault = some r) :
    FaultFits t r := by
  have hpc := s.instrAddr_add_two.symm
  cases h with
  | ret g hsp => cases hr; exact ⟨rfl, rfl, hpc, hsp, g, decode_encode (.ret g)⟩
  | call nnn hsp => cases hr; exact ⟨rfl, rfl, hpc, hsp, nnn, decode_encode (.call nnn)⟩
  | bcd x m => cases hr; exact ⟨cap_le_badAddr s, hpc, x, .inl (decode_encode (.bcd x))⟩
  | stM x m => cases hr; exact ⟨cap_le_badAddr s, hpc, x, .inr (decode_encode (.stM x))⟩
  | ldM x v => cases hr; exact ⟨cap_le_badAddr s, hpc, x, decode_encode (.ldM x)⟩

end Sys2Proof.Machine
end

section
/-! PROOFS. The invariant of the machine (10_state.md section 9): at reset, under a step, and under every move of the host. -/

namespace Sys2Proof.Machine

/-! ### The invariant under an instruction, from a state whose `pc` a fetch in bounds has advanced (R26, R101). -/

theorem exec_i_le {i : Instr} {s t : State} (hs : s.i.toNat ≤ 0xFFF) (h : exec i s = .next t) : t.i.toNat ≤ 0xFFF := by
  by_cases hi : ∃ nnn, i = .ldA nnn
  · obtain ⟨nnn, rfl⟩ := hi
    cases h
    rw [State.setI_i, immNNN_toNat]
    exact Nat.le_of_lt_succ nnn.isLt
  · rwa [exec_i_of_ne_ldA (not_exists.mp hi) h]

theorem immNNN_le_cap (nnn : Imm12) : (immNNN nnn).toNat ≤ Config.cap := by
  rw [immNNN_toNat]; exact nnn.isLt.le

theorem State.skipIf_pc_le {s : State} (h : s.pc.toNat ≤ Config.cap) (c : Bool) :
    (s.skipIf c).pc.toNat ≤ Config.cap + 2 := by
  rw [State.skipIf_pc_toNat]
  split <;> omega

/-- Every live slot holds the address after a call that was fetched (R38 item 4). -/
def State.StackLive (s : State) : Prop :=
  ∀ (k : Nat) (h : k < Config.stackDepth), k < s.sp.val → 2 ≤ s.stack[k].toNat ∧ s.stack[k].toNat ≤ Config.cap

theorem exec_pc_le {i : Instr} {s t : State} (hstack : s.StackLive) (hpc : s.pc.toNat ≤ Config.cap)
    (h : exec i s = .next t) : t.pc.toNat ≤ Config.cap + 2 := by
  cases i with
  | jp nnn => cases h; exact Nat.le_add_right_of_le (immNNN_le_cap nnn)
  | seI | sneI | seR | sneR => cases h; exact State.skipIf_pc_le hpc _
  | ret g =>
    rcases Nat.eq_zero_or_pos s.sp.val with h0 | h0
    · cases (execRet_of_empty g h0).symm.trans h; exact Nat.le_add_right_of_le hpc
    · cases (execRet_of_pos g h0).symm.trans h
      exact Nat.le_add_right_of_le (hstack _ (by omega) (by omega)).2
  | call nnn =>
    by_cases h16 : s.sp.val < Config.stackDepth
    · cases (execCall_of_lt nnn h16).symm.trans h; exact Nat.le_add_right_of_le (immNNN_le_cap nnn)
    · cases (execCall_of_full nnn h16).symm.trans h; exact Nat.le_add_right_of_le hpc
  | _ => rw [exec_pc_of_not_writesPc rfl h]; exact Nat.le_add_right_of_le hpc

theorem State.StackLive.of_le {s t : State} (hs : s.StackLive) (hstack : t.stack = s.stack) (hsp : t.sp.val ≤ s.sp.val) :
    t.StackLive := by
  intro k hk hlive
  simp only [hstack]
  exact hs k hk (Nat.lt_of_lt_of_le hlive hsp)

/-- A call adds one live slot, with the advanced `pc` in it. -/
theorem State.StackLive.push {s : State} (hs : s.StackLive) (h16 : s.sp.val < Config.stackDepth) (pc : Word) {a : Word}
    (h2 : 2 ≤ a.toNat) (hcap : a.toNat ≤ Config.cap) :
    State.StackLive { s with pc := pc, stack := s.stack.set s.sp.val a, sp := ⟨s.sp.val + 1, by omega⟩ } := by
  intro k hk hlive
  rcases Nat.lt_succ_iff_lt_or_eq.mp hlive with hlt | rfl
  · simp only [Vector.getElem_set_ne _ _ (Nat.ne_of_gt hlt)]
    exact hs k hk hlt
  · simp only [Vector.getElem_set_self]
    exact ⟨h2, hcap⟩

theorem exec_stackLive {i : Instr} {s t : State} (hs : s.StackLive) (h2 : 2 ≤ s.pc.toNat)
    (hpc : s.pc.toNat ≤ Config.cap) (h : exec i s = .next t) : t.StackLive := by
  cases i with
  | call nnn =>
    by_cases h16 : s.sp.val < Config.stackDepth
    · cases (execCall_of_lt nnn h16).symm.trans h; exact hs.push h16 _ h2 hpc
    · cases (execCall_of_full nnn h16).symm.trans h; exact hs
  | ret g =>
    rcases Nat.eq_zero_or_pos s.sp.val with h0 | h0
    · cases (execRet_of_empty g h0).symm.trans h; exact hs
    · cases (execRet_of_pos g h0).symm.trans h; exact hs.of_le rfl (Nat.sub_le _ 1)
  | _ =>
    obtain ⟨hstack, hsp⟩ := exec_callStack_of_ne (by simp) (by simp) h
    exact hs.of_le hstack (by rw [hsp])

/-- The five fields of the invariant, each from the rule about it above. -/
theorem exec_inv {i : Instr} {s t : State} (hs : s.Inv) (hf : s.fault = none) (h2 : 2 ≤ s.pc.toNat)
    (hpc : s.pc.toNat ≤ Config.cap) (h : exec i s = .next t) : t.Inv where
  mem_wf := execAt_wf hs.mem_wf ((execAt_eq_exec i s).trans h)
  i_le := exec_i_le hs.i_le h
  pc_le := exec_pc_le hs.stack_live hpc h
  stack_live := exec_stackLive hs.stack_live h2 hpc h
  fault_fits _ hr := (exec_raises h hf (by rw [hr]; nofun)).faultFits hr

/-! ### The invariant under the other things a step can do (R101, R102, R106). -/

/-- Raising keeps the invariant when the record fits. -/
theorem State.Inv.raise {s : State} (hs : s.Inv) {r : FaultRecord} (hr : FaultFits (s.raise r) r) : (s.raise r).Inv :=
  ⟨hs.mem_wf, hs.i_le, hs.pc_le, hs.stack_live, fun _ h => by cases h; exact hr⟩

/-- A fetch succeeds exactly when both bytes are in bounds (R102). -/
theorem State.fetch_eq_none_iff (s : State) : s.fetch = none ↔ Config.cap ≤ s.pc.toNat + 1 := by
  rcases Nat.lt_or_ge (s.pc.toNat + 1) Config.cap with h | h
  · simp [s.fetch_of_lt h, h]
  · simp [s.fetch_of_le h, h]

theorem State.advance_pc_toNat_of_fetch {s : State} {w : Word} (h : s.fetch = some w) :
    s.advance.pc.toNat = s.pc.toNat + 2 ∧ s.pc.toNat + 2 ≤ Config.cap := by
  have hlt : s.pc.toNat + 1 < 4096 := by
    by_contra hle
    cases h.symm.trans ((s.fetch_eq_none_iff).mpr (Nat.le_of_not_lt hle))
  exact ⟨(BitVec.toNat_add s.pc 2).trans (Nat.mod_eq_of_lt (by simp; omega)), hlt⟩

/-- With nothing on record the invariant does not see the fault, and phase 2 keeps it (R101). -/
theorem State.Inv.advance {s : State} (hs : s.Inv) (hf : s.fault = none) {w : Word} (hw : s.fetch = some w) :
    s.advance.Inv where
  mem_wf := hs.mem_wf
  i_le := hs.i_le
  pc_le := by
    obtain ⟨hpc, hle⟩ := s.advance_pc_toNat_of_fetch hw
    rw [hpc]; exact Nat.le_add_right_of_le hle
  stack_live := hs.stack_live
  fault_fits _ hr := by cases hf.symm.trans hr

/-- Settles O14: of the four things a step can do, two change nothing but the record, the third nothing but it and `pc`, and
the last executes an instruction from a `pc` between 2 and the capacity. -/
theorem stepKeepsTheInvariant : Obligations.StepKeepsTheInvariant := by
  intro s t hs h
  rcases step_cases s with ⟨_, hstep⟩ | ⟨_, hw, hstep⟩ | ⟨w, e, hf, hw, hd, hstep⟩ | ⟨w, i, hf, hw, hd, hstep⟩
  · cases hstep.symm.trans h; exact hs
  · cases hstep.symm.trans h
    exact hs.raise ⟨rfl, rfl, (s.fetch_eq_none_iff).mp hw, rfl⟩
  · cases hstep.symm.trans h
    exact (hs.advance hf hw).raise ⟨rfl, rfl, s.advance.instrAddr_add_two.symm, e, hd⟩
  · obtain ⟨hpc, hle⟩ := s.advance_pc_toNat_of_fetch hw
    exact exec_inv (hs.advance hf hw) hf (by omega) (hpc.trans_le hle) (hstep.symm.trans h)

end Sys2Proof.Machine
end

section
/-! PROOFS. The decoder against the two tables of the spec: the opcode map (30_encoding.md R86) and the case table of
40_step_cycle.md R104, whose keys are arithmetic on the word (R81). -/

namespace Sys2Proof

open Machine (wordXNN_of_and_F000 wordXYN_of_and_F00F fieldClass_of_and_F000 decode_of_encode_eq wordOfBytes_toNat)

/-! ### The six fields are positions of the word (R81). -/

theorem fieldClass_toNat (w : Word) : (fieldClass w).toNat = w.toNat / 4096 := by
  have hw := w.isLt
  rw [fieldClass, BitVec.extractLsb'_toNat, Nat.shiftRight_eq_div_pow, Nat.mod_eq_of_lt (by omega)]

theorem fieldX_toNat (w : Word) : (fieldX w).toNat = w.toNat / 256 % 16 := by
  rw [fieldX, BitVec.extractLsb'_toNat, Nat.shiftRight_eq_div_pow]

theorem fieldY_toNat (w : Word) : (fieldY w).toNat = w.toNat / 16 % 16 := by
  rw [fieldY, BitVec.extractLsb'_toNat, Nat.shiftRight_eq_div_pow]

theorem fieldN_toNat (w : Word) : (fieldN w).toNat = w.toNat % 16 := by
  rw [fieldN, BitVec.extractLsb'_toNat, Nat.shiftRight_zero]

theorem fieldNN_toNat (w : Word) : (fieldNN w).toNat = w.toNat % 256 := by
  rw [fieldNN, BitVec.extractLsb'_toNat, Nat.shiftRight_zero]

theorem fieldNNN_toNat (w : Word) : (fieldNNN w).toNat = w.toNat % 4096 := by
  rw [fieldNNN, BitVec.extractLsb'_toNat, Nat.shiftRight_zero]

/-- Settles O5: each field is a quotient and a remainder of the word, and the word of two bytes is their sum in base 256. -/
theorem fieldsArePositionsOfTheWord : Obligations.FieldsArePositionsOfTheWord := by
  refine ⟨fun w => ?_, fun b0 b1 => ?_⟩
  · simp only [fieldClass_toNat, fieldX_toNat, fieldY_toNat, fieldN_toNat, fieldNN_toNat, fieldNNN_toNat, true_and]
    omega
  · have hb0 := b0.isLt
    have hb1 := b1.isLt
    simp only [fieldClass_toNat, fieldX_toNat, fieldY_toNat, fieldN_toNat, fieldNNN_toNat, ← BitVec.toNat_inj,
      fieldNN_toNat, wordOfBytes_toNat]
    omega

/-! ### The opcode map: a legal word lies in its instruction's row (R86). -/

theorem row_covers_encode (i : Instr) : i.row.covers (encode i) = true := by
  cases i with
  | cls => exact Laws.EncodesInRow.cls _
  | ret => exact Laws.EncodesInRow.ret _
  | jp => exact Laws.EncodesInRow.jp _
  | call => exact Laws.EncodesInRow.call _
  | seI => exact Laws.EncodesInRow.seI _ _
  | sneI => exact Laws.EncodesInRow.sneI _ _
  | seR => exact Laws.EncodesInRow.seR _ _ _
  | ldI => exact Laws.EncodesInRow.ldI _ _
  | addI => exact Laws.EncodesInRow.addI _ _
  | ldR => exact Laws.EncodesInRow.ldR _ _
  | orR => exact Laws.EncodesInRow.orR _ _
  | andR => exact Laws.EncodesInRow.andR _ _
  | xorR => exact Laws.EncodesInRow.xorR _ _
  | addR => exact Laws.EncodesInRow.addR _ _
  | sub => exact Laws.EncodesInRow.sub _ _
  | shr => exact Laws.EncodesInRow.shr _ _
  | subn => exact Laws.EncodesInRow.subn _ _
  | shl => exact Laws.EncodesInRow.shl _ _
  | sneR => exact Laws.EncodesInRow.sneR _ _ _
  | ldA => exact Laws.EncodesInRow.ldA _
  | drw => exact Laws.EncodesInRow.drw _ _ _
  | bcd => exact Laws.EncodesInRow.bcd _
  | stM => exact Laws.EncodesInRow.stM _
  | ldM => exact Laws.EncodesInRow.ldM _

theorem row_mem_opcodeTable (i : Instr) : i.row ∈ opcodeTable := by
  cases i <;> simp [Instr.row, opcodeTable]

/-! ### The opcode map: a word in a row is the word of an instruction of that row. -/

theorem wordNNN_of_and_F000 {w : Word} {c : Nibble} (h : w &&& 0xF000 = wordNNN c 0) : wordNNN c (fieldNNN w) = w :=
  wordNNN_of_fields (congrArg BitVec.toNat ((fieldClass_of_and_F000 h).trans (fieldClass_wordNNN c 0)))

theorem wordXYN_of_and_F000 {w : Word} {c : Nibble} (h : w &&& 0xF000 = wordXYN c 0 0 0) :
    wordXYN c (fieldX w) (fieldY w) (fieldN w) = w :=
  wordXYN_of_fields (congrArg BitVec.toNat ((fieldClass_of_and_F000 h).trans (fieldClass_wordXYN c 0 0 0))) rfl

theorem fieldClass_of_and_F0FF {w pattern : Word} (h : w &&& 0xF0FF = pattern) : fieldClass w = fieldClass pattern := by
  rw [← h, fieldClass, fieldClass, BitVec.extractLsb'_and]
  exact BitVec.and_allOnes.symm

theorem fieldNN_of_and_F0FF {w pattern : Word} (h : w &&& 0xF0FF = pattern) : fieldNN w = fieldNN pattern := by
  rw [← h, fieldNN, fieldNN, BitVec.extractLsb'_and]
  exact BitVec.and_allOnes.symm

theorem wordXNN_of_and_F0FF {w : Word} {c : Nibble} {nn : Byte} (h : w &&& 0xF0FF = wordXNN c 0 nn) :
    wordXNN c (fieldX w) nn = w := by
  have hclass : fieldClass w = c := (fieldClass_of_and_F0FF h).trans (fieldClass_wordXNN c 0 nn)
  have hnn : fieldNN w = nn := (fieldNN_of_and_F0FF h).trans (fieldNN_wordXNN c 0 nn)
  exact wordXNN_of_fields (congrArg BitVec.toNat hclass) (congrArg BitVec.toNat hnn)

/-- One line for each row of the table: the instruction that the row's word puts together from its fields. -/
theorem exists_instr_of_covers {r : OpcodeRow} (hr : r ∈ opcodeTable) {w : Word} (h : r.covers w = true) :
    ∃ i, encode i = w ∧ i.row = r := by
  rw [OpcodeRow.covers, beq_iff_eq] at h
  simp only [opcodeTable, List.cons_append, List.nil_append, List.mem_cons, List.not_mem_nil, or_false] at hr
  obtain rfl | rfl | rfl | rfl | rfl | rfl | rfl | rfl | rfl | rfl | rfl | rfl | rfl | rfl | rfl | rfl | rfl | rfl | rfl |
    rfl | rfl | rfl | rfl | rfl := hr
  · exact ⟨.cls _, wordXNN_of_and_F0FF h, rfl⟩
  · exact ⟨.ret _, wordXNN_of_and_F0FF h, rfl⟩
  · exact ⟨.jp _, wordNNN_of_and_F000 h, rfl⟩
  · exact ⟨.call _, wordNNN_of_and_F000 h, rfl⟩
  · exact ⟨.seI _ _, wordXNN_of_and_F000 h, rfl⟩
  · exact ⟨.sneI _ _, wordXNN_of_and_F000 h, rfl⟩
  · exact ⟨.seR _ _ _, wordXYN_of_and_F000 h, rfl⟩
  · exact ⟨.ldI _ _, wordXNN_of_and_F000 h, rfl⟩
  · exact ⟨.addI _ _, wordXNN_of_and_F000 h, rfl⟩
  · exact ⟨.ldR _ _, wordXYN_of_and_F00F h, rfl⟩
  · exact ⟨.orR _ _, wordXYN_of_and_F00F h, rfl⟩
  · exact ⟨.andR _ _, wordXYN_of_and_F00F h, rfl⟩
  · exact ⟨.xorR _ _, wordXYN_of_and_F00F h, rfl⟩
  · exact ⟨.addR _ _, wordXYN_of_and_F00F h, rfl⟩
  · exact ⟨.sub _ _, wordXYN_of_and_F00F h, rfl⟩
  · exact ⟨.shr _ _, wordXYN_of_and_F00F h, rfl⟩
  · exact ⟨.subn _ _, wordXYN_of_and_F00F h, rfl⟩
  · exact ⟨.shl _ _, wordXYN_of_and_F00F h, rfl⟩
  · exact ⟨.sneR _ _ _, wordXYN_of_and_F000 h, rfl⟩
  · exact ⟨.ldA _, wordNNN_of_and_F000 h, rfl⟩
  · exact ⟨.drw _ _ _, wordXYN_of_and_F000 h, rfl⟩
  · exact ⟨.bcd _, wordXNN_of_and_F0FF h, rfl⟩
  · exact ⟨.stM _, wordXNN_of_and_F0FF h, rfl⟩
  · exact ⟨.ldM _, wordXNN_of_and_F0FF h, rfl⟩

/-- A row of the table covers the words that decode to an instruction of the row, and no others. -/
theorem covers_iff_decode {r : OpcodeRow} (hr : r ∈ opcodeTable) (w : Word) :
    r.covers w = true ↔ ∃ i, decode w = .ok i ∧ i.row = r := by
  constructor
  · intro h
    obtain ⟨i, hw, hi⟩ := exists_instr_of_covers hr h
    exact ⟨i, decode_of_encode_eq hw, hi⟩
  · rintro ⟨i, hd, rfl⟩
    rw [← encode_of_decode hd]
    exact row_covers_encode i

/-- Settles O3: a word that lies in a row decodes to an instruction of it, and the decoder gives one instruction or none. -/
theorem decodeAgreesWithOpcodeTable : Obligations.DecodeAgreesWithOpcodeTable := by
  refine fun w => ⟨fun i hd => ⟨row_mem_opcodeTable i, fun r hr => ?_⟩, fun e hd r hr => ?_⟩
  · simp only [covers_iff_decode hr, hd, Except.ok.injEq, exists_eq_left', eq_comm]
  · simp only [← Bool.not_eq_true, covers_iff_decode hr, hd, reduceCtorEq, false_and, exists_false, not_false_eq_true]

/-! ### The case table: the illegal words of each class that has a second key (R88). -/

theorem decodeClass0_error_iff (w : Word) :
    (∃ e, decodeClass0 w = .error e) ↔ (fieldNN w).toNat ≠ 0xE0 ∧ (fieldNN w).toNat ≠ 0xEE := by
  rw [decodeClass0]
  split <;> simp_all

theorem decodeClass8_error_iff (w : Word) :
    (∃ e, decodeClass8 w = .error e) ↔ 8 ≤ (fieldN w).toNat ∧ (fieldN w).toNat ≠ 0xE := by
  rw [decodeClass8]
  split
  case h_10 => simp only [imp_false] at *; exact iff_of_true ⟨_, rfl⟩ (by omega)
  all_goals simp [*]

theorem decodeClassF_error_iff (w : Word) : (∃ e, decodeClassF w = .error e) ↔
    (fieldNN w).toNat ≠ 0x33 ∧ (fieldNN w).toNat ≠ 0x55 ∧ (fieldNN w).toNat ≠ 0x65 := by
  rw [decodeClassF]
  split <;> simp_all

/-- The illegal words are those of the three classes, and all of classes 0xB, 0xC and 0xE. -/
theorem decode_error_iff (w : Word) : (∃ e, decode w = .error e) ↔
    ((fieldClass w).toNat = 0x0 ∧ (fieldNN w).toNat ≠ 0xE0 ∧ (fieldNN w).toNat ≠ 0xEE) ∨
    ((fieldClass w).toNat = 0x8 ∧ 8 ≤ (fieldN w).toNat ∧ (fieldN w).toNat ≠ 0xE) ∨
    ((fieldClass w).toNat = 0xB ∨ (fieldClass w).toNat = 0xC ∨ (fieldClass w).toNat = 0xE) ∨
    ((fieldClass w).toNat = 0xF ∧ (fieldNN w).toNat ≠ 0x33 ∧ (fieldNN w).toNat ≠ 0x55 ∧ (fieldNN w).toNat ≠ 0x65) := by
  have hclass := (fieldClass w).isLt
  rw [decode]
  split
  case h_1 hc => simp [hc, decodeClass0_error_iff]
  case h_9 hc => simp [hc, decodeClass8_error_iff]
  case h_13 hc => simp [hc, decodeClassF_error_iff]
  case h_14 => simp only [imp_false] at *; exact iff_of_true ⟨_, rfl⟩ (by omega)
  all_goals simp [*]

/-- Settles O4: with the keys named as the decoder names them, each line is an arm of it, and the last is the three classes
and the arms that are left. -/
theorem decodeIsTheCaseTable : Obligations.DecodeIsTheCaseTable := by
  intro w
  simp only [← fieldClass_toNat, ← fieldNN_toNat, ← fieldN_toNat]
  refine ⟨?_, ?_, ?_, ?_, ?_, ?_, ?_, ?_, ?_, ?_, ?_, ?_, ?_, ?_, ?_, ?_, ?_, ?_, ?_, ?_, ?_, ?_, ?_, ?_,
    decode_error_iff w⟩
  all_goals intro h; simp [decode, decodeClass0, decodeClass8, decodeClassF, h]

/-- Settles O6: sixteen words, decoded. -/
theorem specWordsDecodeAsTabled : Obligations.SpecWordsDecodeAsTabled := by
  unfold Obligations.SpecWordsDecodeAsTabled
  decide

end Sys2Proof
end

section
/-! PROOFS. The step and the run (40_step_cycle.md R101 to R108, 60_exceptions.md R236): the four outcomes of a step, each from
what is at `pc`, and the halted state. -/

namespace Sys2Proof.Machine

variable {p : Config.Params}

/-! ### What the fetch finds (R52, R62). -/

theorem State.memRead_eq_some_iff {s : State p} {a : Nat} {b : Byte} :
    s.memRead a = some b ↔ a < p.cap ∧ s.mem.lookup a = b := by
  rcases Nat.lt_or_ge a p.cap with h | h
  · simp [s.memRead_of_lt h, h]
  · simp [s.memRead_of_le h, h]

theorem State.fetch_of_memRead {s : State p} {high low : Byte} (hhigh : s.memRead s.pc.toNat = some high)
    (hlow : s.memRead (s.pc.toNat + 1) = some low) : s.fetch = some (wordOfBytes high low) := by
  obtain ⟨_, rfl⟩ := State.memRead_eq_some_iff.mp hhigh
  obtain ⟨hlt, rfl⟩ := State.memRead_eq_some_iff.mp hlow
  exact s.fetch_of_lt hlt

/-! ### The two faults that come before an instruction (R102, R106). -/

theorem stepBy_of_fetch_eq_none (execute : Instr → State p → Result p) {s : State p} (hf : s.fault = none)
    (hw : s.fetch = none) : s.stepBy execute = .next s.raiseFetch := by
  rcases stepBy_cases execute s with ⟨h, _⟩ | ⟨_, _, hstep⟩ | ⟨w, e, _, h, _⟩ | ⟨w, i, _, h, _⟩
  · exact absurd hf h
  · exact hstep
  · cases hw.symm.trans h
  · cases hw.symm.trans h

theorem step_of_decode_error {s : State} {w : Word} {e : Reject} (hf : s.fault = none) (hw : s.fetch = some w)
    (hd : decode w = .error e) : step s = .next (s.advance.raisePlain .unimplementedOpcode w) := by
  rcases step_cases s with ⟨h, _⟩ | ⟨_, h, _⟩ | ⟨_, _, _, h, _, hstep⟩ | ⟨_, _, _, h, hi, _⟩
  · exact absurd hf h
  · cases hw.symm.trans h
  · cases hw.symm.trans h; exact hstep
  · cases hw.symm.trans h; cases hd.symm.trans hi

/-- Settles O7: the two bytes are the fetched word, and phase 2 has advanced `pc` before the instruction executes. -/
theorem stepRunsTheDecodedInstruction : Obligations.StepRunsTheDecodedInstruction :=
  fun _ _ _ _ hf h0 h1 hd => step_of_decode hf (State.fetch_of_memRead h0 h1) hd

/-- Settles O8: the fetch fails, whatever would execute, and what is raised is `State.raiseFetch`. -/
theorem fetchBeyondCapacityHalts : Obligations.FetchBeyondCapacityHalts :=
  ⟨fun s hf hpc => stepBy_of_fetch_eq_none exec hf (s.fetch_of_le hpc),
    fun _ s hf hpc => stepBy_of_fetch_eq_none execAt hf (s.fetch_of_le hpc)⟩

/-- Settles O9: the advanced state raises, and the address it records is the one the word was fetched from. -/
theorem illegalWordHalts : Obligations.IllegalWordHalts := by
  intro s b0 b1 e hf h0 h1 hd
  rw [step_of_decode_error hf (State.fetch_of_memRead h0 h1) hd, State.raisePlain_eq, State.instrAddr_advance]
  rfl

/-! ### Every step answers a next state (R107). -/

/-- Only the return and the call have two outcomes; the other meanings are a next state as they are written. -/
theorem exec_total (i : Instr) (s : State) : ∃ t, exec i s = .next t := by
  cases i with
  | ret g =>
    rcases Nat.eq_zero_or_pos s.sp.val with h0 | h0
    · exact ⟨_, execRet_of_empty g h0⟩
    · exact ⟨_, execRet_of_pos g h0⟩
  | call nnn =>
    by_cases h16 : s.sp.val < Config.stackDepth
    · exact ⟨_, execCall_of_lt nnn h16⟩
    · exact ⟨_, execCall_of_full nnn h16⟩
  | _ => exact ⟨_, rfl⟩

theorem step_total (s : State) : ∃ t, step s = .next t := by
  rcases step_cases s with ⟨_, h⟩ | ⟨_, _, h⟩ | ⟨_, _, _, _, _, h⟩ | ⟨_, i, _, _, _, h⟩
  · exact ⟨_, h⟩
  · exact ⟨_, h⟩
  · exact ⟨_, h⟩
  · rw [h]; exact exec_total i _

/-- Settles O11: a fault is a next state, so every instruction, and with it every step, answers one. -/
theorem everyStepAnswersANextState : Obligations.EveryStepAnswersANextState := ⟨step_total, exec_total⟩

/-! ### The halted state is absorbing (R236). -/

theorem step_of_halted {s : State} (h : s.fault ≠ none) : step s = .next s := by
  rcases step_cases s with ⟨_, hstep⟩ | ⟨hf, _⟩ | ⟨_, _, hf, _⟩ | ⟨_, _, hf, _⟩
  · exact hstep
  · exact absurd hf h
  · exact absurd hf h
  · exact absurd hf h

theorem run_of_halted {s : State} (h : s.fault ≠ none) (k : Nat) : run k s = .next s := by
  induction k with
  | zero => rfl
  | succ k ih => rw [run_succ_of_next (step_of_halted h), ih]

/-- Settles O10: by induction on the steps, each of which is not taken. -/
theorem haltedMachineNeverMoves : Obligations.HaltedMachineNeverMoves := fun _ h k => run_of_halted h k

theorem RunsUnfaulted.fault_eq_none {k : Nat} {s : State} (h : RunsUnfaulted k s) : s.fault = none := by
  by_contra hs
  obtain ⟨t, ht, hf⟩ := h
  cases (run_of_halted hs k).symm.trans ht
  exact hs hf

theorem RunsUnfaulted.succ_iff {s t : State} (h : step s = .next t) (k : Nat) :
    RunsUnfaulted (k + 1) s ↔ RunsUnfaulted k t := by
  rw [RunsUnfaulted, RunsUnfaulted, run_succ_of_next h]

/-- Settles O12: by induction on the run, whose start is unfaulted because a fault would have stayed. -/
theorem noFaultNowMeansNoFaultBefore : Obligations.NoFaultNowMeansNoFaultBefore := by
  intro k
  induction k with
  | zero => intro s h j hj; rwa [Nat.le_zero.mp hj]
  | succ k ih =>
    intro s h j hj
    obtain ⟨t, hstep⟩ := step_total s
    cases j with
    | zero => exact ⟨s, rfl, h.fault_eq_none⟩
    | succ j =>
      rw [RunsUnfaulted.succ_iff hstep] at h ⊢
      exact ih t h j (Nat.le_of_succ_le_succ hj)

end Sys2Proof.Machine
end

section
/-! PROOFS. The framebuffer and its flag (10_state.md R31, R32, 20_memory.md R56 to R60): the frame data, the instructions that
touch the frame, and that no step reads `dirty`. -/

namespace Sys2Proof.Machine

variable {p : Config.Params}

/-! ### The frame data (R60). -/

theorem State.getElem_frameData (s : State p) {k : Nat} (hk : k < p.width * p.height) :
    s.frameData[k] = (s.fb.get k).setWidth 8 := by
  rw [State.frameData, Vector.getElem_ofFn]

theorem Pixel.setWidth_eq_zero_or_one (b : Pixel) : b.setWidth 8 = (0 : Byte) ∨ b.setWidth 8 = (1 : Byte) := by
  rcases Pixel.cases b with rfl | rfl
  · exact .inl rfl
  · exact .inr rfl

/-- Settles O21: element `k` is the grid's bit `k`, which a pixel write sets at its own index and keeps at every other. -/
theorem frameDataIsRowMajor : Obligations.FrameDataIsRowMajor := by
  intro p s x y b k hk
  rw [s.getElem_frameData hk, State.getElem_frameData _ hk]
  refine ⟨Pixel.setWidth_eq_zero_or_one _, ?_, ?_, rfl⟩
  · rintro rfl
    exact BitVec.toNat_setWidth_of_le (by decide)
  · split
    · next h => subst h; exact congrArg _ (Frame.get_set_same s.fb hk b)
    · next h => exact congrArg _ (Frame.get_set_other s.fb h b)

/-! ### The frame and its flag under an instruction (R31, R32, 90_conflicts.md C1, C3). -/

theorem State.skipIf_display (s : State p) (c : Bool) : (s.skipIf c).fb = s.fb ∧ (s.skipIf c).dirty = s.dirty := by
  cases c <;> exact ⟨rfl, rfl⟩

theorem storeBytes_display (op : Word) (k : Nat) (bytes : List Byte) (s : State p) :
    (storeBytes op k bytes s).fb = s.fb ∧ (storeBytes op k bytes s).dirty = s.dirty := by
  obtain ⟨m, f, h⟩ := storeBytes_frame op k bytes s
  rw [h]; exact ⟨rfl, rfl⟩

theorem loadRegs_display (op : Word) (count k : Nat) (s : State p) :
    (loadRegs op count k s).fb = s.fb ∧ (loadRegs op count k s).dirty = s.dirty := by
  obtain ⟨c, f, _, h⟩ := loadRegs_frame op count k s
  rw [h]; exact ⟨rfl, rfl⟩

theorem exec_display_of_not_touchesFrame {i : Instr} {s t : State} (hi : i.touchesFrame = false)
    (h : exec i s = .next t) : t.fb = s.fb ∧ t.dirty = s.dirty := by
  cases i with
  | cls | drw => cases hi
  | jp | ldI | addI | ldR | orR | andR | xorR | addR | sub | shr | subn | shl | ldA => cases h; exact ⟨rfl, rfl⟩
  | seI | sneI | seR | sneR => cases h; exact State.skipIf_display s _
  | ret => obtain ⟨_, _, rfl⟩ | rfl := execRet_cases h <;> exact ⟨rfl, rfl⟩
  | call => obtain ⟨_, _, _, rfl⟩ | rfl := execCall_cases h <;> exact ⟨rfl, rfl⟩
  | bcd | stM => cases h; exact storeBytes_display _ _ _ s
  | ldM => cases h; exact loadRegs_display _ _ _ s

theorem exec_dirty_of_dirty {i : Instr} {s t : State} (h : exec i s = .next t) (hs : s.dirty = true) :
    t.dirty = true := by
  cases i with
  | cls => cases h; rfl
  | drw => cases h; exact drawRows_induction (P := fun s => s.dirty = true) (fun _ _ _ _ _ => rfl) _ 0 hs
  | _ => exact (exec_display_of_not_touchesFrame rfl h).2.trans hs

/-- Settles O35: the clear and the draw set the flag, and every other instruction leaves it and the frame. -/
theorem onlyDisplayInstructionsTouchTheFrame : Obligations.OnlyDisplayInstructionsTouchTheFrame := by
  refine fun i s t h => ⟨fun hi => ?_, exec_dirty_of_dirty h⟩
  obtain ⟨hfb, hdirty⟩ := exec_display_of_not_touchesFrame hi h
  exact ⟨State.pixelGet_of_fb_eq hfb, hdirty⟩

/-! ### `dirty` is never read (R32): each operation answers for `s` with another `dirty` what it answers for `s`, but for
`dirty`. -/

/-- `s` with `dirty` at a value. -/
def State.withDirty (s : State p) (d : Bool) : State p := { s with dirty := d }

theorem State.skipIf_withDirty (s : State p) (d c : Bool) : (s.withDirty d).skipIf c = (s.skipIf c).withDirty d := by
  cases c <;> rfl

theorem storeBytes_withDirty (op : Word) (k : Nat) (bytes : List Byte) (s : State p) (d : Bool) :
    storeBytes op k bytes (s.withDirty d) = (storeBytes op k bytes s).withDirty d := by
  cases bytes with
  | nil => rfl
  | cons b bs =>
    by_cases hfit : s.dataAddr k + (b :: bs).length ≤ p.cap
    · rw [storeBytes_of_fits op _ k s hfit, storeBytes_of_fits op _ k (s.withDirty d) hfit]; rfl
    · have hne := List.cons_ne_nil b bs
      rw [storeBytes_of_overflow op _ k s hne (Nat.lt_of_not_le hfit),
        storeBytes_of_overflow op _ k (s.withDirty d) hne (Nat.lt_of_not_le hfit)]; rfl

theorem loadedV_withDirty (count k : Nat) (s : State p) (d : Bool) : loadedV (s.withDirty d) count k = loadedV s count k := by
  induction count generalizing k s with
  | zero => rfl
  | succ n ih => exact ih (k + 1) (s.setReg (BitVec.ofNat 4 k) (s.mem.lookup (s.dataAddr k)))

theorem loadRegs_withDirty (op : Word) (count k : Nat) (s : State p) (d : Bool) :
    loadRegs op count k (s.withDirty d) = (loadRegs op count k s).withDirty d := by
  cases count with
  | zero => rfl
  | succ n =>
    by_cases hfit : s.dataAddr k + (n + 1) ≤ p.cap
    · rw [loadRegs_of_fits op _ k s hfit, loadRegs_of_fits op _ k (s.withDirty d) hfit, loadedV_withDirty]; rfl
    · rw [loadRegs_of_overflow op _ k s n.succ_pos (Nat.lt_of_not_le hfit),
        loadRegs_of_overflow op _ k (s.withDirty d) n.succ_pos (Nat.lt_of_not_le hfit), loadedV_withDirty]; rfl

/-- A row sets `dirty` at its first pixel, so what it was is gone. -/
theorem drawRow_withDirty (x y : Reg) (b : Byte) (row : Nat) (s : State p) (d : Bool) :
    drawRow x y b row (s.withDirty d) = drawRow x y b row s := by
  have hcols : List.range 8 = 0 :: (List.range 7).map (· + 1) := rfl
  rw [drawRow, drawRow, hcols, List.foldl_cons, List.foldl_cons]
  rfl

theorem drawRows_withDirty (x y : Reg) (count row : Nat) (s : State p) (d : Bool) :
    ∃ d', drawRows x y count row (s.withDirty d) = (drawRows x y count row s).withDirty d' := by
  cases count with
  | zero => exact ⟨d, rfl⟩
  | succ n =>
    rcases Nat.lt_or_ge (s.dataAddr row) p.cap with h | h
    · rw [drawRows_of_lt x y n h, drawRows_of_lt x y n (s := s.withDirty d) h, drawRow_withDirty]
      exact ⟨_, rfl⟩
    · rw [drawRows_of_le x y _ h, drawRows_of_le x y _ (s := s.withDirty d) h]
      exact ⟨d, rfl⟩

theorem exec_withDirty {i : Instr} {s t : State} (d : Bool) (h : exec i s = .next t) :
    ∃ d', exec i (s.withDirty d) = .next (t.withDirty d') := by
  cases i with
  | cls => cases h; exact ⟨true, rfl⟩
  | jp | ldI | addI | ldR | orR | andR | xorR | addR | sub | shr | subn | shl | ldA => cases h; exact ⟨d, rfl⟩
  | seI | sneI | seR | sneR => cases h; exact ⟨d, congrArg Host.Outcome.next (s.skipIf_withDirty d _)⟩
  | ret g =>
    rcases Nat.eq_zero_or_pos s.sp.val with h0 | h0
    · cases (execRet_of_empty g h0).symm.trans h; exact ⟨d, execRet_of_empty g (s := s.withDirty d) h0⟩
    · cases (execRet_of_pos g h0).symm.trans h; exact ⟨d, execRet_of_pos g (s := s.withDirty d) h0⟩
  | call nnn =>
    by_cases h16 : s.sp.val < Config.stackDepth
    · cases (execCall_of_lt nnn h16).symm.trans h; exact ⟨d, execCall_of_lt nnn (s := s.withDirty d) h16⟩
    · cases (execCall_of_full nnn h16).symm.trans h; exact ⟨d, execCall_of_full nnn (s := s.withDirty d) h16⟩
  | drw x y n =>
    cases h
    obtain ⟨d', hd⟩ := drawRows_withDirty x y (rowCount n) 0 (s.setReg vf 0) d
    exact ⟨d', congrArg Host.Outcome.next hd⟩
  | bcd | stM => cases h; exact ⟨d, congrArg Host.Outcome.next (storeBytes_withDirty _ _ _ s d)⟩
  | ldM => cases h; exact ⟨d, congrArg Host.Outcome.next (loadRegs_withDirty _ _ _ s d)⟩

/-- Settles O38: the halt, the fetch and the decoder do not look at `dirty`, and what executes only passes it on or sets it. -/
theorem dirtyIsNeverRead : Obligations.DirtyIsNeverRead := by
  intro s t d h
  rcases step_cases s with ⟨hf, hstep⟩ | ⟨hf, hw, hstep⟩ | ⟨w, e, hf, hw, hd, hstep⟩ | ⟨w, i, hf, hw, hd, hstep⟩
  · cases hstep.symm.trans h; exact ⟨d, step_of_halted (s := s.withDirty d) hf⟩
  · cases hstep.symm.trans h; exact ⟨d, stepBy_of_fetch_eq_none exec (s := s.withDirty d) hf hw⟩
  · cases hstep.symm.trans h; exact ⟨d, step_of_decode_error (s := s.withDirty d) hf hw hd⟩
  · obtain ⟨d', hd'⟩ := exec_withDirty d (hstep.symm.trans h)
    exact ⟨d', (step_of_decode (s := s.withDirty d) hf hw hd).trans hd'⟩

end Sys2Proof.Machine
end

section
/-! PROOFS. The call stack's two instructions and the register skips (41_control_flow.md), and the subtractions and shifts in
which `VF` is an operand (42_load_and_alu.md). -/

namespace Sys2Proof.Machine

variable {p : Config.Params}

/-! ### The call and the return (R120, R122). -/

/-- Settles O40: the push writes slot `sp` alone and counts it; on a full stack nothing but the record is written. -/
theorem callPushesTheReturnAddress : Obligations.CallPushesTheReturnAddress := by
  refine fun nnn s => ⟨fun h16 => ⟨_, execCall_of_lt nnn h16, immNNN_toNat nnn, rfl, Vector.getElem_set_self h16,
    fun k hk hne => Vector.getElem_set_ne h16 hk hne.symm, rfl⟩, fun h16 => execCall_of_full nnn ?_⟩
  exact Nat.not_lt_of_le h16.ge

/-- Settles O41: the pop uncounts slot `sp - 1` and reads it; on an empty stack nothing but the record is written. -/
theorem returnPopsTheReturnAddress : Obligations.ReturnPopsTheReturnAddress :=
  fun g _ => ⟨fun hpos => ⟨_, execRet_of_pos g hpos, Nat.sub_add_cancel hpos, rfl, rfl⟩, execRet_of_empty g⟩

/-! ### The register skips (R125, R126). -/

/-- Settles O44: each skip moves `pc` alone, by the comparison of the two registers, whatever the don't-care bits. -/
theorem registerSkips : Obligations.RegisterSkips :=
  fun _ _ _ s => ⟨⟨_, rfl, s.skipIf_frame _, s.skipIf_beq_pc_toNat _ _⟩,
    ⟨_, rfl, s.skipIf_frame _, s.skipIf_bne_pc_toNat _ _⟩⟩

/-! ### `VF` as an operand (R147 to R150, decision D5): its own flag is what the instruction then reads. -/

theorem lowBitFlag_shiftRight_one (b : Byte) : lowBitFlag b >>> 1 = 0 := by
  have hbit : (lowBitFlag b).toNat / 2 = 0 := by rw [lowBitFlag_eq_ofNat, BitVec.toNat_ofNat]; omega
  rw [byte_shiftRight_one_eq_ofNat, hbit]
  rfl

theorem highBitFlag_shiftLeft_one (b : Byte) : highBitFlag b <<< 1 = if 128 ≤ b.toNat then 2 else 0 := by
  have hb := b.isLt
  rw [highBitFlag_eq_ofNat]
  split
  · next h => rw [show b.toNat / 128 = 1 by omega]; rfl
  · next h => rw [show b.toNat / 128 = 0 by omega]; rfl

/-- Settles O30: row by row of the tables, the flag stands wherever `VF` is read after it was written. -/
theorem flagAsOperandCornerCases : Obligations.FlagAsOperandCornerCases := by
  intro x y g s hx hy
  refine ⟨⟨_, rfl, ?_, ?_⟩, ⟨_, rfl, ?_⟩, ⟨_, rfl, ?_⟩, ⟨_, rfl, ?_, ?_⟩,
    ⟨_, rfl, ?_⟩, ⟨_, rfl, ?_⟩, ⟨_, rfl, ?_⟩, ⟨_, rfl, ?_⟩⟩
  case refine_9 => simp only [State.reg_setReg_same, lowBitFlag_shiftRight_one]
  case refine_10 => simp only [State.reg_setReg_same, highBitFlag_shiftLeft_one]
  case refine_4 | refine_8 => rw [State.reg_setReg_same]; exact BitVec.sub_self _
  all_goals simp only [State.reg_setReg_same, State.reg_setReg_other _ _ hx, State.reg_setReg_other _ _ hx.symm,
    State.reg_setReg_other _ _ hy, greaterFlag_eq_ite]

end Sys2Proof.Machine
end

section
/-! PROOFS. The memory transfers (44_memory_transfer.md) in bounds and past the capacity, whatever the capacity: which bytes and
registers are moved, and what is recorded when not all can be (R190 to R192, R231, R237). -/

namespace Sys2Proof.Machine

variable {p : Config.Params}

/-! ### Bytes stored from `i` up. -/

theorem State.dataAddr_eq_add (s : State p) (k : Nat) : s.dataAddr k = s.dataAddr 0 + k := by
  rw [State.dataAddr_eq, State.dataAddr_eq, Nat.add_zero]

/-- Below the capacity each stored byte is read back, also when the store went on past it. -/
theorem memRead_storeBytes_of_lt (op : Word) (bytes : List Byte) (s : State p) {j : Nat} (hj : j < bytes.length)
    (hlt : s.dataAddr j < p.cap) : (storeBytes op 0 bytes s).memRead (s.dataAddr j) = some bytes[j] := by
  have haddr := s.dataAddr_eq_add j
  by_cases hfit : s.dataAddr 0 + bytes.length ≤ p.cap
  · rw [haddr, memRead_storeBytes_of_fits op hfit hj]
  · have hne : bytes ≠ [] := List.ne_nil_of_length_pos (Nat.zero_lt_of_lt hj)
    rw [storeBytes_of_overflow op bytes 0 s hne (Nat.lt_of_not_le hfit), State.raiseData_eq, State.memRead_of_lt _ hlt]
    simp only [State.raise_mem]
    rw [Memory.lookup_putBytes, dif_pos (by rw [List.length_take]; omega), List.getElem_take]
    simp only [haddr, Nat.add_sub_cancel_left]

/-- A store never reaches an address below `i`. -/
theorem memRead_storeBytes_of_below (op : Word) (bytes : List Byte) (s : State p) {a : Nat} (ha : a < s.dataAddr 0) :
    (storeBytes op 0 bytes s).memRead a = s.memRead a :=
  memRead_storeBytes_of_outside op bytes 0 s fun h => Nat.not_le_of_lt ha h.1

theorem storeBytes_frame_of_fits (op : Word) {bytes : List Byte} {s : State p}
    (h : s.dataAddr 0 + bytes.length ≤ p.cap) :
    storeBytes op 0 bytes s = { s with mem := (storeBytes op 0 bytes s).mem } := by
  rw [storeBytes_of_fits op bytes 0 s h]

theorem storeBytes_frame_of_overflow (op : Word) {bytes : List Byte} {s : State p} (hne : bytes ≠ [])
    (h : p.cap < s.dataAddr 0 + bytes.length) :
    storeBytes op 0 bytes s = { s with mem := (storeBytes op 0 bytes s).mem, fault := some (
      { kind := .outOfBounds, instrAddr := s.pc - 2, opcode := op,
        badAddr := BitVec.ofNat 17 (max p.cap (s.dataAddr 0)), access := .dataWrite }) } := by
  rw [storeBytes_of_overflow op bytes 0 s hne h]
  rfl

/-! ### The three digits (R190). -/

theorem bcdDigits_ne_nil (b : Byte) : bcdDigits b ≠ [] := List.cons_ne_nil _ _

/-- Each digit fits in its byte, and together they are the number. -/
theorem bcdDigits_spec (b : Byte) :
    100 * (bcdDigits b)[0].toNat + 10 * (bcdDigits b)[1].toNat + (bcdDigits b)[2].toNat = b.toNat ∧
      (bcdDigits b)[1].toNat ≤ 9 ∧ (bcdDigits b)[2].toNat ≤ 9 := by
  have hb := b.isLt
  simp only [bcdDigits, List.getElem_cons_zero, List.getElem_cons_succ, BitVec.toNat_ofNat]
  omega

/-- Settles O45: the digits are the quotients and remainders of R190, stored at `i`, `i + 1`, `i + 2` and nowhere else. -/
theorem bcdStoresTheDigits : Obligations.BcdStoresTheDigits := by
  intro x s h
  have hread {j : Nat} (hj : j < 3) := memRead_storeBytes_of_lt (encode (.bcd x)) (bcdDigits (s.reg x)) s hj
    (lt_of_le_of_lt (Nat.add_le_add_left (Nat.le_of_lt_succ hj) _) h)
  obtain ⟨hvalue, htens, hones⟩ := bcdDigits_spec (s.reg x)
  refine ⟨_, _, _, _, rfl, hread (j := 0) (by decide), hread (j := 1) (by decide), hread (j := 2) (by decide), hvalue, htens,
    hones, fun a ha => ?_, storeBytes_frame_of_fits _ (Nat.succ_le_of_lt h)⟩
  exact memRead_storeBytes_of_outside _ _ 0 s fun hin => ha ⟨hin.1, Nat.le_of_lt_succ hin.2⟩

/-! ### The register range stored (R191). -/

theorem State.regRange_ne_nil (s : State p) (x : Reg) : s.regRange x ≠ [] :=
  List.ne_nil_of_length_pos (by rw [State.length_regRange]; exact Nat.succ_pos _)

theorem memRead_storeBytes_regRange (op : Word) {x k : Reg} (hk : k.toNat ≤ x.toNat) {s : State p}
    (hlt : s.dataAddr k.toNat < p.cap) :
    (storeBytes op 0 (s.regRange x) s).memRead (s.dataAddr k.toNat) = some (s.reg k) := by
  have hlen : k.toNat < (s.regRange x).length := by rw [State.length_regRange]; exact Nat.lt_succ_of_le hk
  rw [memRead_storeBytes_of_lt op _ s hlen hlt, s.getElem_regRange hlen]

/-- Settles O46: the range is in bounds with its last byte, and its bytes are the registers in ascending order. -/
theorem storeRegistersStoresTheRange : Obligations.StoreRegistersStoresTheRange := by
  intro x s h
  refine ⟨_, rfl, fun k hk => memRead_storeBytes_regRange _ hk ?_, fun a ha => ?_, storeBytes_frame_of_fits _ ?_⟩
  · rw [State.dataAddr_eq] at h ⊢; exact Nat.lt_of_le_of_lt (Nat.add_le_add_left hk _) h
  · refine memRead_storeBytes_of_outside _ _ 0 s fun hin => ha ⟨hin.1, ?_⟩
    have hlt := hin.2
    rw [State.length_regRange, rangeLen, Nat.zero_add] at hlt
    exact Nat.le_of_lt_succ hlt
  · rw [State.length_regRange]; exact State.dataAddr_add_rangeLen_le h

/-- A transfer of `n + 1` bytes whose last address is out of bounds runs past the capacity. -/
theorem State.lt_add_of_le_dataAddr {s : State p} {n : Nat} (h : p.cap ≤ s.dataAddr n) : p.cap < s.dataAddr 0 + (n + 1) := by
  rw [State.dataAddr_eq_add] at h; omega

theorem storeBytes_regRange_frame_of_overflow (op : Word) {x : Reg} {s : State p} (h : p.cap ≤ s.dataAddr x.toNat) :
    storeBytes op 0 (s.regRange x) s = { s with mem := (storeBytes op 0 (s.regRange x) s).mem, fault := some (
      { kind := .outOfBounds, instrAddr := s.pc - 2, opcode := op,
        badAddr := BitVec.ofNat 17 (max p.cap (s.dataAddr 0)), access := .dataWrite }) } :=
  storeBytes_frame_of_overflow op (s.regRange_ne_nil x)
    (by rw [State.length_regRange]; exact State.lt_add_of_le_dataAddr h)

/-- Settles O49: the bytes that lie below the capacity are stored before the first address that fails is met; both dispatches
come to the same meaning, so that one argument serves this hardware and every capacity. -/
theorem storePastCapacityKeepsLowerBytes : Obligations.StorePastCapacityKeepsLowerBytes := by
  refine ⟨fun _ s => ⟨fun h => ?bcd, fun h => ?stM⟩, fun _ _ s => ⟨fun h => ?bcdAt, fun h => ?stMAt⟩⟩
  case bcd | bcdAt =>
    exact ⟨_, rfl, fun _ hk => memRead_storeBytes_of_lt _ _ s hk, fun _ => memRead_storeBytes_of_below _ _ s,
      storeBytes_frame_of_overflow _ (bcdDigits_ne_nil _) (State.lt_add_of_le_dataAddr h)⟩
  case stM | stMAt =>
    exact ⟨_, rfl, fun _ hk => memRead_storeBytes_regRange _ hk, fun _ => memRead_storeBytes_of_below _ _ s,
      storeBytes_regRange_frame_of_overflow _ h⟩

/-! ### The register range loaded (R192). -/

/-- Settles O47: the range is in bounds with its last byte, and its registers are loaded in ascending order. -/
theorem loadRegistersLoadsTheRange : Obligations.LoadRegistersLoadsTheRange :=
  fun _ _ h => ⟨_, execLdM_of_fits h, fun _ => execLdM_reg_of_le (execLdM_of_fits h) h,
    fun _ => execLdM_reg_of_lt (execLdM_of_fits h), rfl⟩

theorem execLdM_of_overflow {x : Reg} {s : State p} (h : p.cap ≤ s.dataAddr x.toNat) :
    execLdM x s = .next { s with v := loadedV s (p.cap - s.dataAddr 0) 0, fault := some (
      { kind := .outOfBounds, instrAddr := s.pc - 2, opcode := encode (.ldM x),
        badAddr := BitVec.ofNat 17 (max p.cap (s.dataAddr 0)), access := .dataRead }) } :=
  congrArg Host.Outcome.next (loadRegs_of_overflow _ _ 0 s (Nat.succ_pos _) (State.lt_add_of_le_dataAddr h))

/-- Of a range that runs past the capacity, the registers whose bytes lie below it are loaded. -/
theorem reg_loadedV_of_overflow {x : Reg} {s : State p} (h : p.cap ≤ s.dataAddr x.toNat) (k : Reg) :
    (loadedV s (p.cap - s.dataAddr 0) 0)[k.toNat]'(reg_lt k) =
      if s.dataAddr k.toNat < p.cap then s.mem.lookup (s.dataAddr k.toNat) else s.reg k := by
  have hx := reg_lt x
  have hxa := s.dataAddr_eq_add x.toNat
  have hka := s.dataAddr_eq_add k.toNat
  rw [reg_loadedV _ 0 s k (by omega)]
  exact if_congr (by omega) rfl rfl

theorem execLdM_loaded_of_overflow {x : Reg} {s t : State p} (h : p.cap ≤ s.dataAddr x.toNat) (ht : execLdM x s = .next t)
    {k : Reg} (hk : s.dataAddr k.toNat < p.cap) : s.memRead (s.dataAddr k.toNat) = some (t.reg k) := by
  cases (execLdM_of_overflow h).symm.trans ht
  rw [s.memRead_of_lt hk]
  exact congrArg some ((reg_loadedV_of_overflow h k).trans (if_pos hk)).symm

theorem execLdM_kept_of_overflow {x : Reg} {s t : State p} (h : p.cap ≤ s.dataAddr x.toNat) (ht : execLdM x s = .next t)
    {k : Reg} (hk : p.cap ≤ s.dataAddr k.toNat ∨ x.toNat < k.toNat) : t.reg k = s.reg k := by
  rcases hk with hk | hk
  · cases (execLdM_of_overflow h).symm.trans ht
    exact (reg_loadedV_of_overflow h k).trans (if_neg (Nat.not_lt_of_le hk))
  · exact execLdM_reg_of_lt ht hk

/-- Settles O50: the loads stop at the capacity; both dispatches come to the same meaning, so that one argument serves this
hardware and every capacity. -/
theorem loadPastCapacityKeepsLoadedRegisters : Obligations.LoadPastCapacityKeepsLoadedRegisters := by
  refine ⟨fun _ _ h => ?_, fun _ _ _ h => ?_⟩
  all_goals
    exact ⟨_, execLdM_of_overflow h, fun _ _ => execLdM_loaded_of_overflow h (execLdM_of_overflow h),
      fun _ hk => execLdM_kept_of_overflow h (execLdM_of_overflow h) hk, rfl⟩

end Sys2Proof.Machine
end

section
/-! PROOFS. The canonical form of memory determines it (log 3), and the reset procedure (70_reset_and_hazards.md R261 to R264):
what it leaves, in each of its three outcomes. -/

namespace Sys2Proof.Machine

open Config (Params)

variable {p : Params}

/-! ### A canonical memory lists exactly the addresses that read as something else than their reset content. -/

theorem Memory.lookup_of_mem {m : Memory} (hm : m.Pairwise fun c d => c.1 < d.1) {c : Host.Cell} (hc : c ∈ m) :
    m.lookup c.1 = c.2 := by
  induction m with
  | nil => cases hc
  | cons d m ih =>
    rw [List.pairwise_cons] at hm
    obtain ⟨hhead, htail⟩ := hm
    rw [Memory.lookup_cons]
    rcases List.mem_cons.mp hc with rfl | hc
    · exact if_pos rfl
    · rw [if_neg (Nat.ne_of_lt (hhead c hc)), ih htail hc]

theorem Memory.mem_of_lookup_ne {m : Memory} {a : Nat} (h : m.lookup a ≠ Memory.unlisted a) : (a, m.lookup a) ∈ m := by
  induction m with
  | nil => exact absurd rfl h
  | cons d m ih =>
    rw [Memory.lookup_cons] at h ⊢
    split at h
    · next hd => subst hd; rw [if_pos rfl]; exact List.mem_cons_self
    · next hd => rw [if_neg hd]; exact List.mem_cons_of_mem _ (ih h)

theorem Memory.mem_iff_of_wf {m : Memory} (hm : m.wf p) {c : Host.Cell} :
    c ∈ m ↔ c.1 < p.cap ∧ m.lookup c.1 = c.2 ∧ c.2 ≠ Memory.unlisted c.1 := by
  obtain ⟨hrising, hcell⟩ := hm
  constructor
  · exact fun hc => ⟨(hcell c hc).1, Memory.lookup_of_mem hrising hc, (hcell c hc).2⟩
  · rintro ⟨_, hread, hne⟩
    have hmem : (c.1, m.lookup c.1) ∈ m := Memory.mem_of_lookup_ne (by rwa [hread])
    rwa [hread] at hmem

/-- Two canonical memories that read the same list the same cells, and a rising list is determined by its cells. -/
theorem Memory.eq_of_wf_of_lookup_eq {m m' : Memory} (hm : m.wf p) (hm' : m'.wf p)
    (h : ∀ a, a < p.cap → m.lookup a = m'.lookup a) : m = m' := by
  have : Std.Irrefl fun c d : Host.Cell => c.1 < d.1 := ⟨fun c => Nat.lt_irrefl c.1⟩
  have : Std.Antisymm fun c d : Host.Cell => c.1 < d.1 := ⟨fun _ _ hlt hgt => absurd hlt (Nat.lt_asymm hgt)⟩
  refine List.Pairwise.eq_of_mem_iff hm.1 hm'.1 fun c => ?_
  rw [Memory.mem_iff_of_wf hm, Memory.mem_iff_of_wf hm']
  exact and_congr_right fun hlt => by rw [h _ hlt]

/-- Settles O19: below the capacity a read is a lookup. -/
theorem canonicalMemoriesWithEqualReadsAreEqual : Obligations.CanonicalMemoriesWithEqualReadsAreEqual := by
  intro p m m' hm hm' h
  refine Memory.eq_of_wf_of_lookup_eq hm hm' fun a ha => ?_
  have hread := h a ha
  rw [Memory.read_of_lt ha, Memory.read_of_lt ha] at hread
  exact Option.some.inj hread

/-! ### The two loads of R261, each cut at the capacity. -/

/-- Memory with the font loaded over zeros. -/
def fontLoaded (p : Params) (font : Vector Byte Config.fontLen) : Memory :=
  (Memory.zeroed p).putBytes p.fontAddr (font.toList.take (min font.toList.length (p.cap - p.fontAddr)))

/-- Memory with the program loaded after the font. -/
def bothLoaded (p : Params) (program : List Byte) (font : Vector Byte Config.fontLen) : Memory :=
  (fontLoaded p font).putBytes p.loadAddr (program.take (min program.length (p.cap - p.loadAddr)))

section

variable {program : List Byte} {font : Vector Byte Config.fontLen}

theorem resetWith_of_fontAddr_le (h : p.cap ≤ p.fontAddr) : resetWith p program font =
    { state := (blankState p).raise (loadFault p.fontAddr), counts := none } := by
  simp only [resetWith, Memory.writeBlock_of_le h]

theorem writeBlock_font (h : p.fontAddr < p.cap) :
    Memory.writeBlock p (blankState p).mem font.toList p.fontAddr =
      some (fontLoaded p font, min 80 (p.cap - p.fontAddr)) := by
  rw [Memory.writeBlock_of_lt h, fontLoaded, Vector.length_toList]
  rfl

theorem resetWith_of_loadAddr_le (hfont : p.fontAddr < p.cap) (h : p.cap ≤ p.loadAddr) : resetWith p program font =
    { state := (State.cleared p (fontLoaded p font)).raise (loadFault p.loadAddr), counts := none } := by
  simp only [resetWith, writeBlock_font hfont, Memory.writeBlock_of_le h]
  rfl

theorem resetWith_of_lt (hfont : p.fontAddr < p.cap) (hload : p.loadAddr < p.cap) : resetWith p program font =
    { state := State.cleared p (bothLoaded p program font),
      counts := some (min 80 (p.cap - p.fontAddr), min program.length (p.cap - p.loadAddr)) } := by
  simp only [resetWith, writeBlock_font hfont, Memory.writeBlock_of_lt hload]
  rfl

theorem read_fontLoaded {a : Nat} (ha : a < p.cap) : Memory.read p (fontLoaded p font) a =
    if p.fontAddr ≤ a ∧ a < p.fontAddr + 80 then font.toList[a - p.fontAddr]? else some 0 := by
  rw [fontLoaded, Memory.read_putBytes_take _ _ _ ha, Memory.read_of_lt ha, Memory.lookup_zeroed ha, Vector.length_toList]

theorem read_bothLoaded {a : Nat} (ha : a < p.cap) : Memory.read p (bothLoaded p program font) a =
    if p.loadAddr ≤ a ∧ a < p.loadAddr + program.length then program[a - p.loadAddr]?
    else if p.fontAddr ≤ a ∧ a < p.fontAddr + 80 then font.toList[a - p.fontAddr]?
    else some 0 := by
  rw [bothLoaded, Memory.read_putBytes_take _ _ _ ha, read_fontLoaded ha]

theorem getElem?_font {k : Nat} (hk : k < 80) : font.toList[k]? = some font[k] := by
  rw [Vector.getElem?_toList, Vector.getElem?_eq_getElem hk]

theorem read_fontLoaded_add {k : Nat} (hk : k < 80) (hlt : p.fontAddr + k < p.cap) :
    Memory.read p (fontLoaded p font) (p.fontAddr + k) = some font[k] := by
  rw [read_fontLoaded hlt, if_pos ⟨Nat.le_add_right _ k, Nat.add_lt_add_left hk _⟩, Nat.add_sub_cancel_left, getElem?_font hk]

/-- A font byte below the program is not overwritten by it. -/
theorem read_bothLoaded_font {k : Nat} (hk : k < 80) (hbelow : p.fontAddr + k < p.loadAddr) (hlt : p.fontAddr + k < p.cap) :
    Memory.read p (bothLoaded p program font) (p.fontAddr + k) = some font[k] := by
  rw [read_bothLoaded hlt, if_neg fun h => Nat.not_le_of_lt hbelow h.1, ← read_fontLoaded hlt, read_fontLoaded_add hk hlt]

theorem read_bothLoaded_program {k : Nat} (hk : k < program.length) (hlt : p.loadAddr + k < p.cap) :
    Memory.read p (bothLoaded p program font) (p.loadAddr + k) = some program[k] := by
  rw [read_bothLoaded hlt, if_pos ⟨Nat.le_add_right _ k, Nat.add_lt_add_left hk _⟩, Nat.add_sub_cancel_left,
    List.getElem?_eq_getElem hk]

end

/-- Settles O59: the first load, or the second one, finds its offset out of bounds and leaves memory as it was. -/
theorem loadAddressBeyondCapacityHalts : Obligations.LoadAddressBeyondCapacityHalts := by
  intro p program font
  refine ⟨fun h => ?_, fun hfont h => ?_⟩
  · rw [resetWith_of_fontAddr_le h]
    refine ⟨rfl, rfl, fun a ha => ?_⟩
    exact (Memory.read_of_lt ha).trans (congrArg some (Memory.lookup_zeroed ha))
  · rw [resetWith_of_loadAddr_le hfont h]
    exact ⟨rfl, rfl, fun k hk hlt => read_fontLoaded_add hk hlt⟩

/-- Settles O57: below the capacity memory reads as the program over the font over zeros, and on this hardware the images do
not meet. -/
theorem resetLoadsFontAndProgram : Obligations.ResetLoadsFontAndProgram := by
  refine ⟨fun program font => ?_, fun p program font hfont hload => ?_⟩
  · rw [resetWith_of_lt (by decide) (by decide)]
    refine ⟨rfl, fun k hk => ?_, fun k hk hlt => ?_, fun a ha hfont hprogram => ?_, rfl⟩
    · exact read_bothLoaded_font hk (show 0x50 + k < 0x200 by omega) (show 0x50 + k < 4096 by omega)
    · exact read_bothLoaded_program hk (show 0x200 + k < 4096 by omega)
    · exact (read_bothLoaded (p := .canonical) ha).trans (by rw [if_neg hprogram, if_neg hfont])
  · rw [resetWith_of_lt hfont hload]
    refine ⟨rfl, ?_, rfl, fun a ha => read_bothLoaded ha⟩
    exact (BitVec.toNat_ofNat _ 16).trans (Nat.mod_eq_of_lt (Nat.lt_of_lt_of_le hload p.cap_le))

/-! ### The state after reset (R39). -/

/-- Memory that lists nothing reads as its reset content, the font in its 80 bytes and 0 elsewhere. -/
theorem Memory.unlisted_font {k : Nat} (hk : k < 80) : Memory.unlisted (0x50 + k) = Config.font[k] := by
  rw [Memory.unlisted, dif_pos ⟨Nat.le_add_right _ k, Nat.add_lt_add_left hk _⟩]
  simp only [Nat.add_sub_cancel_left]

theorem Memory.unlisted_zero {a : Nat} (ha : ¬ (0x50 ≤ a ∧ a < 0xA0)) : Memory.unlisted a = 0 := dif_neg ha

/-- Settles O56: the fields as `State.cleared` gives them, and a memory that lists nothing. -/
theorem resetStateIsTheTable : Obligations.ResetStateIsTheTable := by
  refine ⟨rfl, rfl, fun k => Vector.getElem_replicate _, rfl, fun k hk => Vector.getElem_replicate hk, fun x y => ?_,
    rfl, rfl,
    fun k hk => ?_, fun a ha hfont => ?_⟩
  · simp [State.pixelGet, Frame.get]
  · exact (Memory.read_of_lt (by show _ < 4096; omega)).trans (congrArg some (Memory.unlisted_font hk))
  · exact (Memory.read_of_lt ha).trans (congrArg some (Memory.unlisted_zero hfont))

theorem wf_fontLoaded (hfont : p.fontAddr < p.cap) (font : Vector Byte Config.fontLen) : (fontLoaded p font).wf p :=
  Memory.wf_writeBlock (Memory.wf_zeroed p) (writeBlock_font hfont)

theorem wf_bothLoaded (hfont : p.fontAddr < p.cap) (hload : p.loadAddr < p.cap) (program : List Byte)
    (font : Vector Byte Config.fontLen) : (bothLoaded p program font).wf p :=
  Memory.wf_writeBlock (wf_fontLoaded hfont font) (Memory.writeBlock_of_lt hload)

/-- The machine's own font over zeros is what memory reads as when it lists nothing. -/
theorem bothLoaded_nil_font : bothLoaded .canonical [] Config.font = [] := by
  refine Memory.eq_of_wf_of_lookup_eq (p := .canonical) (wf_bothLoaded (by decide) (by decide) _ _) (Memory.wf_nil _)
    fun a ha => Option.some.inj ?_
  rw [← Memory.read_of_lt ha, read_bothLoaded ha, if_neg (by simp), Memory.lookup_nil]
  by_cases hin : 0x50 ≤ a ∧ a < 0xA0
  · obtain ⟨k, rfl⟩ := Nat.exists_eq_add_of_le hin.1
    have hk : k < 80 := by omega
    rw [if_pos hin, Nat.add_sub_cancel_left, getElem?_font hk, Memory.unlisted_font hk]
  · rw [if_neg hin, Memory.unlisted_zero hin]

/-- Settles O58: both loads succeed, and what they leave in memory is its reset content. -/
theorem resetProcedureGivesTheResetState : Obligations.ResetProcedureGivesTheResetState := by
  rw [Obligations.ResetProcedureGivesTheResetState, resetWith_of_lt (by decide) (by decide), bothLoaded_nil_font]
  rfl

end Sys2Proof.Machine
end

section
/-! PROOFS. The invariant of the machine at reset and under the moves of the host (50_interfaces.md R215 to R219). -/

namespace Sys2Proof.Machine

/-- With nothing on record and nothing on the stack, a canonical memory is all the invariant asks for. -/
theorem cleared_inv {m : Memory} (hm : m.wf) : (State.cleared .canonical m).Inv where
  mem_wf := hm
  i_le := Nat.zero_le _
  pc_le := show 0x200 ≤ Config.cap + 2 by decide
  stack_live _ _ hlive := absurd hlive (Nat.not_lt_zero _)
  fault_fits _ hr := by cases hr

/-- Settles O13: the reset state is the cleared state with a memory that lists nothing. -/
theorem resetSatisfiesTheInvariant : Obligations.ResetSatisfiesTheInvariant := cleared_inv (Memory.wf_nil _)

theorem resetWith_inv (program : List Byte) (font : Vector Byte Config.fontLen) :
    (resetWith .canonical program font).state.Inv := by
  rw [resetWith_of_lt (by decide) (by decide)]
  exact cleared_inv (wf_bothLoaded (by decide) (by decide) program font)

theorem State.Inv.ackFrame {s : State} (hs : s.Inv) : s.ackFrame.Inv :=
  ⟨hs.mem_wf, hs.i_le, hs.pc_le, hs.stack_live, hs.fault_fits⟩

theorem offerStep_inv {run : Bool} {s t : State} (hs : s.Inv) (h : offerStep run s = .next t) : t.Inv := by
  cases run with
  | false => cases h; exact hs
  | true => exact stepKeepsTheInvariant s t hs h

/-- Settles O15: a reset ends in a cleared state with the images in memory, a step keeps the invariant, and `AckFrame` writes
what the invariant does not read. -/
theorem hostMovesKeepTheInvariant : Obligations.HostMovesKeepTheInvariant := by
  intro move s t hs h
  cases move with
  | reset program font => cases h; exact resetWith_inv program font
  | offer run => exact offerStep_inv hs h
  | ackFrame => cases h; exact hs.ackFrame

end Sys2Proof.Machine
end

section
/-! PROOFS. The sprite draw on this hardware (43_display.md section 2, laws of the draw). The draw goes through the cells of the
sprite in one order, cell `8 * r + c` being row `r`, column `c`; a draw in progress is described by how many cells it has done. -/

namespace Sys2Proof.Machine

/-! ### The cells of a sprite and where they land. -/

/-- Cell `k` of the sprite at `i` has colour 1. -/
def State.LitCell (s : State) (k : Nat) : Prop := spritePixel (s.mem.lookup (s.dataAddr (k / 8))) (k % 8) = 1

/-- The column on which cell `k` lands, for the origin's column `ox`. -/
def cellCol (ox k : Nat) : Col := wrapCol (ox + k % 8)

/-- The row on which cell `k` lands, for the origin's row `oy`. -/
def cellRow (oy k : Nat) : Row := wrapRow (oy + k / 8)

/-- The pixel is the place of one of the first `m` cells, of colour 1. -/
def State.Reached (s : State) (ox oy m : Nat) (px : Col) (py : Row) : Prop :=
  ∃ k, k < m ∧ s.LitCell k ∧ px = cellCol ox k ∧ py = cellRow oy k

/-- No two cells of a sprite land on one pixel: it has 8 columns of the 64 and at most 16 rows of the 32. -/
theorem cell_inj {ox oy j k : Nat} (hj : j < 128) (hk : k < 128) (hcol : cellCol ox j = cellCol ox k)
    (hrow : cellRow oy j = cellRow oy k) : j = k := by
  have hcol : (ox + j % 8) % 64 = (ox + k % 8) % 64 := congrArg Fin.val hcol
  have hrow : (oy + j / 8) % 32 = (oy + k / 8) % 32 := congrArg Fin.val hrow
  omega

theorem State.reached_succ {s : State} {ox oy m : Nat} {px : Col} {py : Row} : s.Reached ox oy (m + 1) px py ↔
    s.Reached ox oy m px py ∨ s.LitCell m ∧ px = cellCol ox m ∧ py = cellRow oy m := by
  constructor
  · rintro ⟨k, hk, hcell⟩
    rcases Nat.lt_succ_iff_lt_or_eq.mp hk with hlt | rfl
    · exact .inl ⟨k, hlt, hcell⟩
    · exact .inr hcell
  · rintro (⟨k, hk, hcell⟩ | hcell)
    · exact ⟨k, Nat.lt_succ_of_lt hk, hcell⟩
    · exact ⟨m, Nat.lt_succ_self m, hcell⟩

theorem State.not_reached_cell (s : State) {ox oy m : Nat} (hm : m < 128) :
    ¬ s.Reached ox oy m (cellCol ox m) (cellRow oy m) := by
  rintro ⟨k, hk, _, hcol, hrow⟩
  exact Nat.ne_of_gt hk (cell_inj hm (Nat.lt_trans hk hm) hcol hrow)

/-- The set of R174 is what all the cells together reach. -/
theorem State.inSpriteAt_iff {s : State} {n : Nibble} (hin : s.RowsInBounds n) {ox oy : Nat} {px : Col} {py : Row} :
    s.InSpriteAt ox oy n px py ↔ s.Reached ox oy (8 * rowCount n) px py := by
  constructor
  · rintro ⟨r, c, ⟨hr, hc, b, hb, hlit⟩, hpx, hpy⟩
    obtain ⟨_, rfl⟩ := State.memRead_eq_some_iff.mp hb
    have hdiv : (8 * r + c) / 8 = r := by omega
    have hmod : (8 * r + c) % 8 = c := by omega
    refine ⟨8 * r + c, by omega, ?_, ?_, ?_⟩
    · rwa [State.LitCell, hdiv, hmod]
    · rwa [cellCol, hmod]
    · rwa [cellRow, hdiv]
  · rintro ⟨k, hk, hlit, hpx, hpy⟩
    have hr : k / 8 < rowCount n := by omega
    exact ⟨k / 8, k % 8, ⟨hr, Nat.mod_lt k (by decide), _, s.memRead_of_lt (hin _ hr), hlit⟩, hpx, hpy⟩

/-! ### A draw in progress. -/

/-- `t` is `s` with the first `m` cells of its sprite drawn from the origin `(ox, oy)`: the pixels reached are inverted, `VF` says
whether one of them was set, and a cell of any colour has set `dirty` (R172, decision D9). -/
structure DrawnUpTo (s : State) (ox oy m : Nat) (t : State) : Prop where
  same     : SameButDrawn s t
  inverted : ∀ px py, s.Reached ox oy m px py → t.pixelGet px py = s.pixelGet px py ^^^ 1
  kept     : ∀ px py, ¬ s.Reached ox oy m px py → t.pixelGet px py = s.pixelGet px py
  flag_one : (∃ px py, s.Reached ox oy m px py ∧ s.pixelGet px py = 1) → t.reg vf = 1
  flag_zero : (∀ px py, s.Reached ox oy m px py → s.pixelGet px py = 0) → t.reg vf = 0
  dirty_eq : t.dirty = (s.dirty || decide (0 < m))

/-- The draw starts with the flag reset and no cell done. -/
theorem drawnUpTo_zero (s : State) (ox oy : Nat) : DrawnUpTo s ox oy 0 (s.setReg vf 0) where
  same := sameButDrawn_setVf s 0
  inverted _ _ h := absurd h.choose_spec.1 (Nat.not_lt_zero _)
  kept _ _ _ := rfl
  flag_one h := by
    obtain ⟨_, _, ⟨_, hk, _⟩, _⟩ := h
    exact absurd hk (Nat.not_lt_zero _)
  flag_zero _ := s.reg_setReg_same vf 0
  dirty_eq := (Bool.or_false _).symm

/-! ### One cell. -/

theorem State.pixelGet_pixelSet (s : State) (x x' : Col) (y y' : Row) (b : Pixel) :
    (s.pixelSet x y b).pixelGet x' y' = if x' = x ∧ y' = y then b else s.pixelGet x' y' := by
  split
  · next h => obtain ⟨rfl, rfl⟩ := h; exact s.pixelGet_pixelSet_same x' y' b
  · next h => exact s.pixelGet_pixelSet_other b h

theorem collisionFlag_clear (old : Byte) (cur : Pixel) : collisionFlag old 0 cur = old := by
  have hand : (0 : Pixel) &&& cur = 0 := BitVec.zero_and
  rw [collisionFlag, hand]
  exact BitVec.or_zero

theorem collisionFlag_lit_zero (old : Byte) : collisionFlag old 1 0 = old := BitVec.or_zero

theorem collisionFlag_lit_one {old : Byte} (h : old = 0 ∨ old = 1) : collisionFlag old 1 1 = 1 := by
  rcases h with rfl | rfl <;> rfl

/-- The state after cell `m`, of colour `color`, when `V[X]` and `V[Y]` are the origin. -/
def State.drawCell (t : State) (ox oy m : Nat) (color : Pixel) : State :=
  (t.setReg vf (collisionFlag (t.reg vf) color (t.pixelGet (cellCol ox m) (cellRow oy m)))).pixelSet
    (cellCol ox m) (cellRow oy m) (t.pixelGet (cellCol ox m) (cellRow oy m) ^^^ color)

theorem drawPixel_eq_drawCell {x y : Reg} {t : State} {ox oy : Nat} (hx : (t.reg x).toNat = ox)
    (hy : (t.reg y).toNat = oy) (b : Byte) (m : Nat) :
    drawPixel x y b (m / 8) t (m % 8) = t.drawCell ox oy m (spritePixel b (m % 8)) := by
  subst hx hy; rfl

section

variable {s t : State} {ox oy m : Nat}

theorem sameButDrawn_drawCell (t : State) (ox oy m : Nat) (color : Pixel) : SameButDrawn t (t.drawCell ox oy m color) :=
  ⟨fun _ hk => State.reg_setReg_other t _ hk, rfl⟩

theorem State.pixelGet_drawCell (t : State) (ox oy m : Nat) (color : Pixel) (px : Col) (py : Row) :
    (t.drawCell ox oy m color).pixelGet px py =
      if px = cellCol ox m ∧ py = cellRow oy m then t.pixelGet px py ^^^ color else t.pixelGet px py := by
  rw [State.drawCell, State.pixelGet_pixelSet, State.pixelGet_setReg]
  split
  · next h => rw [h.1, h.2]
  · rfl

theorem State.reg_vf_drawCell (t : State) (ox oy m : Nat) (color : Pixel) : (t.drawCell ox oy m color).reg vf =
    collisionFlag (t.reg vf) color (t.pixelGet (cellCol ox m) (cellRow oy m)) := State.reg_setReg_same t vf _

theorem DrawnUpTo.flag_eq_zero_or_one (h : DrawnUpTo s ox oy m t) : t.reg vf = 0 ∨ t.reg vf = 1 := by
  by_cases hset : ∃ px py, s.Reached ox oy m px py ∧ s.pixelGet px py = 1
  · exact .inr (h.flag_one hset)
  · exact .inl (h.flag_zero fun px py hr => (Pixel.cases _).resolve_right fun hone => hset ⟨px, py, hr, hone⟩)

theorem State.dirty_drawCell_eq_or (s t : State) (ox oy m : Nat) (color : Pixel) :
    (t.drawCell ox oy m color).dirty = (s.dirty || decide (0 < m + 1)) := by
  rw [decide_eq_true (Nat.succ_pos m), Bool.or_true]; rfl

/-- A cell of colour 0 reaches nothing and changes neither a pixel nor the flag. -/
theorem DrawnUpTo.succ_of_clear (h : DrawnUpTo s ox oy m t) (hclear : ¬ s.LitCell m) :
    DrawnUpTo s ox oy (m + 1) (t.drawCell ox oy m 0) := by
  have hreached (px : Col) (py : Row) : s.Reached ox oy (m + 1) px py ↔ s.Reached ox oy m px py := by
    rw [State.reached_succ, or_iff_left fun hcell => hclear hcell.1]
  have hpixel (px : Col) (py : Row) : (t.drawCell ox oy m 0).pixelGet px py = t.pixelGet px py := by
    rw [State.pixelGet_drawCell]
    exact ite_eq_right_iff.mpr fun _ => BitVec.xor_zero
  have hflag : (t.drawCell ox oy m 0).reg vf = t.reg vf := by
    rw [State.reg_vf_drawCell, collisionFlag_clear]
  refine ⟨h.same.trans (sameButDrawn_drawCell t ox oy m 0), ?_, ?_, ?_, ?_, State.dirty_drawCell_eq_or s t ox oy m 0⟩ <;>
    simp only [hreached, hpixel, hflag]
  · exact h.inverted
  · exact h.kept
  · exact h.flag_one
  · exact h.flag_zero

/-- A cell of colour 1 reaches one more pixel, which no cell before it has reached, and inverts it. -/
theorem DrawnUpTo.succ_of_lit (h : DrawnUpTo s ox oy m t) (hm : m < 128) (hlit : s.LitCell m) :
    DrawnUpTo s ox oy (m + 1) (t.drawCell ox oy m 1) := by
  have hnew : t.pixelGet (cellCol ox m) (cellRow oy m) = s.pixelGet (cellCol ox m) (cellRow oy m) :=
    h.kept _ _ (s.not_reached_cell hm)
  have hreached {px : Col} {py : Row} : s.Reached ox oy (m + 1) px py ↔
      s.Reached ox oy m px py ∨ px = cellCol ox m ∧ py = cellRow oy m := by
    rw [State.reached_succ, and_iff_right hlit]
  refine ⟨h.same.trans (sameButDrawn_drawCell t ox oy m 1), fun px py hr => ?_, fun px py hr => ?_, fun hset => ?_,
    fun hzero => ?_, State.dirty_drawCell_eq_or s t ox oy m 1⟩
  · rw [State.pixelGet_drawCell]
    split
    · next hcell => rw [hcell.1, hcell.2, hnew]
    · next hcell => exact h.inverted px py ((hreached.mp hr).resolve_right hcell)
  · obtain ⟨hold, hcell⟩ := not_or.mp (mt hreached.mpr hr)
    rw [State.pixelGet_drawCell, if_neg hcell, h.kept px py hold]
  · rw [State.reg_vf_drawCell, hnew]
    obtain ⟨px, py, hr, hone⟩ := hset
    rcases hreached.mp hr with hold | ⟨rfl, rfl⟩
    · rw [h.flag_one ⟨px, py, hold, hone⟩]
      rcases Pixel.cases (s.pixelGet (cellCol ox m) (cellRow oy m)) with hcur | hcur <;> rw [hcur] <;> rfl
    · rw [hone, collisionFlag_lit_one h.flag_eq_zero_or_one]
  · rw [State.reg_vf_drawCell, hnew, hzero _ _ (hreached.mpr (.inr ⟨rfl, rfl⟩)), collisionFlag_lit_zero]
    exact h.flag_zero fun px py hold => hzero px py (hreached.mpr (.inl hold))

theorem DrawnUpTo.succ (h : DrawnUpTo s ox oy m t) (hm : m < 128) {x y : Reg} (hx : (t.reg x).toNat = ox)
    (hy : (t.reg y).toNat = oy) : DrawnUpTo s ox oy (m + 1)
      (drawPixel x y (s.mem.lookup (s.dataAddr (m / 8))) (m / 8) t (m % 8)) := by
  rw [drawPixel_eq_drawCell hx hy]
  rcases Pixel.cases (spritePixel (s.mem.lookup (s.dataAddr (m / 8))) (m % 8)) with hcolor | hcolor
  · rw [hcolor]
    exact h.succ_of_clear fun hlit => absurd (hcolor.symm.trans hlit) (by decide)
  · rw [hcolor]
    exact h.succ_of_lit hm hcolor

end

/-! ### One row, and the rows. -/

/-- While at most `n` rows are drawn, `V[X]` and `V[Y]` read as the origin. -/
def OriginKept (s : State) (x y : Reg) (ox oy n : Nat) : Prop :=
  ∀ m t, m < 8 * n → DrawnUpTo s ox oy m t → (t.reg x).toNat = ox ∧ (t.reg y).toNat = oy

section

variable {s : State} {x y : Reg} {ox oy n : Nat} (horigin : OriginKept s x y ox oy n) (hn : n ≤ 16)

include horigin hn

theorem DrawnUpTo.cols {row c : Nat} {t : State} (h : DrawnUpTo s ox oy (8 * row) t) (hrow : row < n) (hc : c ≤ 8) :
    DrawnUpTo s ox oy (8 * row + c) ((List.range c).foldl (drawPixel x y (s.mem.lookup (s.dataAddr row)) row) t) := by
  induction c with
  | zero => exact h
  | succ c ih =>
    have hprev := ih (by omega)
    obtain ⟨hx, hy⟩ := horigin _ _ (by omega) hprev
    have hnext := hprev.succ (by omega) hx hy
    rw [show (8 * row + c) / 8 = row by omega, show (8 * row + c) % 8 = c by omega] at hnext
    rw [List.range_succ, List.foldl_append]
    exact hnext

theorem DrawnUpTo.rows {count row : Nat} {t : State} (h : DrawnUpTo s ox oy (8 * row) t) (hcount : row + count = n)
    (hin : ∀ r, r < n → s.dataAddr r < Config.cap) : DrawnUpTo s ox oy (8 * n) (drawRows x y count row t) := by
  induction count generalizing row t with
  | zero => rw [← hcount]; exact h
  | succ c ih =>
    have hi : t.dataAddr row = s.dataAddr row := by rw [State.dataAddr_eq, State.dataAddr_eq, h.same.i_eq]
    rw [drawRows_of_lt x y c (hi ▸ hin row (by omega)), hi, h.same.mem_eq]
    exact ih (h.cols horigin hn (by omega) (Nat.le_refl 8)) (by omega)

end

/-- The whole draw, given that its coordinate registers read as the origin while it goes on. -/
theorem drawnUpTo_execDrw {s t : State} {x y : Reg} {ox oy : Nat} {n : Nibble}
    (horigin : OriginKept s x y ox oy (rowCount n)) (hin : s.RowsInBounds n) (h : execDrw x y n s = .next t) :
    DrawnUpTo s ox oy (8 * rowCount n) t := by
  cases h
  exact (drawnUpTo_zero s ox oy).rows horigin (Nat.le_of_lt n.isLt) (Nat.zero_add _) hin

/-! ### A draw whose coordinate registers are not `VF` (R174). -/

/-- A draw writes no register but `VF`. -/
theorem originKept_of_ne {s : State} {x y : Reg} (hx : x ≠ vf) (hy : y ≠ vf) (n : Nat) :
    OriginKept s x y (s.reg x).toNat (s.reg y).toNat n :=
  fun _ _ _ h => ⟨congrArg BitVec.toNat (h.same.1 x hx), congrArg BitVec.toNat (h.same.1 y hy)⟩

/-- Settles O52: each cell of colour 1 inverts a pixel that no other cell reaches, and the flag collects what was set there. -/
theorem drawInvertsTheSprite : Obligations.DrawInvertsTheSprite := by
  intro x y n s hx hy hin
  have h := drawnUpTo_execDrw (originKept_of_ne hx hy _) hin rfl
  have hrows : decide (0 < 8 * rowCount n) = decide (0 < n.toNat) := decide_eq_decide.mpr (by rw [rowCount]; omega)
  simp only [State.inSpriteAt_iff hin]
  exact ⟨_, rfl, h.inverted, h.kept, h.flag_one, h.flag_zero, h.dirty_eq.trans (by rw [hrows])⟩

/-! ### A draw whose coordinate register is `VF` (R172 corner case 3, decision D5). -/

theorem State.Reached.mono {s : State} {ox oy m n : Nat} {px : Col} {py : Row} (h : s.Reached ox oy m px py)
    (hmn : m ≤ n) : s.Reached ox oy n px py := by
  obtain ⟨k, hk, hcell⟩ := h
  exact ⟨k, Nat.lt_of_lt_of_le hk hmn, hcell⟩

/-- What `V[k]` holds after `VF` is reset: 0 for `VF` itself. -/
theorem SameButDrawn.reg_toNat_of_vf_eq_zero {s t : State} (h : SameButDrawn s t) (hvf : t.reg vf = 0) (k : Reg) :
    (t.reg k).toNat = if k = vf then 0 else (s.reg k).toNat := by
  split
  · next hk => rw [hk, hvf]; rfl
  · next hk => rw [h.1 k hk]

/-- While nothing collides `VF` stays 0. -/
theorem originKept_of_clear {s : State} (x y : Reg) {n : Nat}
    (hclear : ∀ px py,
      s.Reached (if x = vf then 0 else (s.reg x).toNat) (if y = vf then 0 else (s.reg y).toNat) (8 * n) px py →
        s.pixelGet px py = 0) :
    OriginKept s x y (if x = vf then 0 else (s.reg x).toNat) (if y = vf then 0 else (s.reg y).toNat) n := by
  intro m t hm h
  have hvf : t.reg vf = 0 := h.flag_zero fun px py hr => hclear px py (hr.mono (Nat.le_of_lt hm))
  exact ⟨h.same.reg_toNat_of_vf_eq_zero hvf x, h.same.reg_toNat_of_vf_eq_zero hvf y⟩

/-- Settles O53: the flag that a coordinate register reads is 0 until the first collision, and there is none. -/
theorem drawFromFlagRegisterStartsAtZero : Obligations.DrawFromFlagRegisterStartsAtZero := by
  intro x y n s hin S hclear
  simp only [S, State.inSpriteAt_iff hin] at hclear ⊢
  have h := drawnUpTo_execDrw (originKept_of_clear x y hclear) hin rfl
  refine ⟨_, rfl, h.flag_zero hclear, fun px py hr => ?_, h.kept⟩
  rw [h.inverted px py hr, hclear px py hr]
  rfl

/-! ### Two draws of one sprite (R172 corner case 8, log 24). -/

/-- The frame is its pixels. -/
theorem State.fb_ext {s t : State} (h : ∀ px py, t.pixelGet px py = s.pixelGet px py) : t.fb = s.fb := by
  apply BitVec.eq_of_getLsbD_eq
  intro k hk
  have hk : k < 64 * 32 := hk
  have hindex : pixelIndex (wrapCol k : Col) (wrapRow (k / 64) : Row) = k := by
    show k / 64 % 32 * 64 + k % 64 = k
    omega
  have hpixel := h (wrapCol k) (wrapRow (k / 64))
  rw [State.pixelGet, State.pixelGet, hindex] at hpixel
  simpa [Frame.get] using congrArg (BitVec.getLsbD · 0) hpixel

theorem SameButDrawn.reached_iff {s t : State} (h : SameButDrawn s t) {ox oy m : Nat} {px : Col} {py : Row} :
    t.Reached ox oy m px py ↔ s.Reached ox oy m px py := by
  simp only [State.Reached, State.LitCell, State.dataAddr_eq, h.i_eq, h.mem_eq]

theorem SameButDrawn.rowsInBounds {s t : State} (h : SameButDrawn s t) {n : Nibble} (hin : s.RowsInBounds n) :
    t.RowsInBounds n := by
  intro r hr
  rw [State.dataAddr_eq, h.i_eq, ← State.dataAddr_eq]
  exact hin r hr

theorem Pixel.xor_one_xor_one (b : Pixel) : b ^^^ 1 ^^^ 1 = b := by
  rw [BitVec.xor_assoc, BitVec.xor_self]
  exact BitVec.xor_zero

/-- Inverting the same pixels twice gives the frame back. -/
theorem DrawnUpTo.fb_of_twice {s t u : State} {ox oy m : Nat} (h : DrawnUpTo s ox oy m t) (h' : DrawnUpTo t ox oy m u) :
    u.fb = s.fb := by
  refine State.fb_ext fun px py => ?_
  by_cases hr : s.Reached ox oy m px py
  · rw [h'.inverted px py (h.same.reached_iff.mpr hr), h.inverted px py hr, Pixel.xor_one_xor_one]
  · rw [h'.kept px py (mt h.same.reached_iff.mp hr), h.kept px py hr]

/-- Settles O55: the second draw reaches the pixels the first one inverted, and a clear one among them has become set. -/
theorem drawTwiceRestoresTheFrame : Obligations.DrawTwiceRestoresTheFrame := by
  intro x y n s t u hx hy hin hst htu
  have h := drawnUpTo_execDrw (originKept_of_ne hx hy _) hin hst
  have h' := drawnUpTo_execDrw (originKept_of_ne hx hy _) (h.same.rowsInBounds hin) htu
  rw [h.same.1 x hx, h.same.1 y hy] at h'
  simp only [State.inSpriteAt_iff hin]
  refine ⟨h.fb_of_twice h', fun hclear => ?_, fun hset => ?_⟩
  · obtain ⟨px, py, hr, hzero⟩ := hclear
    refine h'.flag_one ⟨px, py, h.same.reached_iff.mpr hr, ?_⟩
    rw [h.inverted px py hr, hzero]
    rfl
  · refine h'.flag_zero fun px py hr => ?_
    have hr := h.same.reached_iff.mp hr
    rw [h.inverted px py hr, hset px py hr]
    rfl

end Sys2Proof.Machine
end
